-- ==== Sys2Proof/Word.lean ====
section
/-! DEFINITION. The word types of USCORE: bytes, 32-bit words, 64-bit command words, elements, register and pattern numbers. -/

namespace Sys2Proof

/-- A byte of the data memory (rule R34, 10_state.md). -/
abbrev Byte := BitVec 8

/-- A 32-bit value: a byte address (rule R65, 30_encoding.md) or a status register (rule R28, 10_state.md). -/
abbrev Word := BitVec 32

/-- A command word (rule R60, 30_encoding.md). -/
abbrev CmdWord := BitVec 64

/-- An element: a bit pattern of EBITS bits (rule R8, 00_scope.md). EBITS is 32 or 64 with the instance; the
model holds every element in 64 bits, the upper half zero where EBITS is 32 (log entry 9). -/
abbrev Elem := BitVec 64

/-- A vector register number 0 to 15 (rules R20 and R63). -/
abbrev RegNum := Fin 16

/-- The value of a PAT field, 0 to 15 (rules R60 and R64). -/
abbrev PatNum := Fin 16

end Sys2Proof
end

