-- ==== Sys2Proof/Config.lean ====
section
/-! DEFINITION. What an instance fixes (element type, register width, memory size) and the model's free values. -/

namespace Sys2Proof

/-- ETYPE, the element type of an instance (rule R5, 00_scope.md). -/
inductive EType where
  /-- 32-bit signed integers -/
  | i32
  /-- 64-bit signed integers -/
  | i64
  /-- 32-bit floats -/
  | f32
  /-- 64-bit floats -/
  | f64
deriving DecidableEq, Repr

/-- The build-time parameters of an instance: WIDE and ETYPE (rule R5) and MEM_BYTES (rule R7, 00_scope.md).
The spec leaves all three open, so every statement of the model is for every value of them (log entry 1). -/
structure Config where
  /-- WIDE: false for the narrow (256-bit) register, true for the wide (512-bit) one -/
  wide : Bool
  /-- ETYPE -/
  etype : EType
  /-- MEM_BYTES, the number of bytes of data memory -/
  memBytes : Nat
deriving DecidableEq, Repr

/-- The range rule R7 gives MEM_BYTES: at most 2^32. -/
def Config.wf (c : Config) : Bool := decide (c.memBytes ≤ 2 ^ 32)

/-- The instance State.reset describes. DESIGN CHOICE (log entries 1 and 2): wide I32, the instance of the
spec's own scenarios 1 to 3, with the largest memory rule R7 allows. -/
def Config.standard : Config := { wide := true, etype := .i32, memBytes := 2 ^ 32 }

/-- A free value: what lane `lane` of register `reg` holds after the reset move that takes draw number `draw`
(rule R160: reset may leave the lanes, clear them or scramble them). Nothing is known of it (log entry 4). -/
opaque Config.freeLane (draw : Nat) (reg : RegNum) (lane : Nat) : Elem

/-- A free value: the byte of data memory at address `addr` before the host or a command has written it (rule R161
and U7: arbitrary, not zero, and fixed for the run). Nothing is known of it (log entry 5). -/
opaque Config.freeByte (addr : Nat) : Byte

end Sys2Proof
end

