-- ==== Sys2Proof/Machine/Params.lean ====
section
/-! DEFINITION. The derived constants of an instance (rule R6, 00_scope.md). -/

namespace Sys2Proof

/-- EBITS: 32 for I32 and F32, 64 for I64 and F64 (rule R6). -/
def Config.ebits (c : Config) : Nat :=
  match c.etype with
  | .i32 => 32
  | .i64 => 64
  | .f32 => 32
  | .f64 => 64

/-- EBYTES = EBITS/8 (rule R6). -/
def Config.ebytes (c : Config) : Nat := c.ebits / 8

/-- VLEN: 512 bits for a wide instance, 256 for a narrow one (rule R6). -/
def Config.vlen (c : Config) : Nat := if c.wide then 512 else 256

/-- W, the lane count: 16, 8, 8 or 4 (rule R6), from VLEN = W*EBITS. -/
def Config.w (c : Config) : Nat := c.vlen / c.ebits

/-- LOGW = log2(W) (rule R6), as the rule's table gives it. -/
def Config.logw (c : Config) : Nat :=
  match c.wide, c.etype with
  | false, .i32 => 3
  | false, .f32 => 3
  | false, .i64 => 2
  | false, .f64 => 2
  | true, .i32 => 4
  | true, .f32 => 4
  | true, .i64 => 3
  | true, .f64 => 3

/-- VBYTES = VLEN/8 (rule R6): the size of a register row in memory and its alignment. -/
def Config.vbytes (c : Config) : Nat := c.vlen / 8

/-- BLOCK_BYTES = W*VBYTES (rule R6). -/
def Config.blockBytes (c : Config) : Nat := c.w * c.vbytes

end Sys2Proof
end

