-- ==== Sys2Proof/Machine/Order.lean ====
section
/-! DEFINITION. The order on elements and the compare-exchange (rules R80 to R83, 40_vector_ops.md). -/

namespace Sys2Proof.Machine

/-- signed_N of rule R8 (00_scope.md), on the pattern `n` of `bits` bits. -/
def signedValue (bits n : Nat) : Int := if n < 2 ^ (bits - 1) then (n : Int) else (n : Int) - (2 : Int) ^ bits

/-- The sign-and-magnitude key of rule R81, on the pattern `n` of `bits` bits: `m` when the sign bit is 0 and
`-m - 1` when it is 1. -/
def floatKey (bits n : Nat) : Int :=
  if n < 2 ^ (bits - 1) then (n : Int) else -((n : Int) - (2 : Int) ^ (bits - 1)) - 1

/-- key(v): rule R80 for the integer instances, rule R81 for the float instances. -/
def key (c : Config) (v : Elem) : Int :=
  match c.etype with
  | .i32 => signedValue c.ebits v.toNat
  | .i64 => signedValue c.ebits v.toNat
  | .f32 => floatKey c.ebits v.toNat
  | .f64 => floatKey c.ebits v.toNat

/-- le(a, b) of rule R82. -/
abbrev elemLe (c : Config) (a b : Elem) : Prop := key c a ≤ key c b

/-- min_T of rule R83: one of the operands, its bits unchanged. -/
def minT (c : Config) (a b : Elem) : Elem := if elemLe c a b then a else b

/-- max_T of rule R83: the other operand. -/
def maxT (c : Config) (a b : Elem) : Elem := if elemLe c a b then b else a

/-- cmpx(a, b) of rules R10 and R83. -/
def cmpx (c : Config) (a b : Elem) : Elem × Elem := (minT c a b, maxT c a b)

end Sys2Proof.Machine
end

