-- ==== Sys2Proof/Machine/Network.lean ====
section
/-! DEFINITION. Comparator networks: NET_SORT(W) (rule R101) and NET_MERGE(W) (rule R104, 41_sorting_network.md). -/

namespace Sys2Proof.Machine

/-- A comparator (lo, hi): position lo receives the minimum, position hi the maximum (rule R100). -/
abbrev Comparator := Nat × Nat

/-- A network: a list of stages, each a list of comparators no two of which share a position (rule R100). -/
abbrev Network := List (List Comparator)

/-- One comparator applied to a sequence, with `cx` as the compare-exchange (rule R100). -/
def compareAt {α : Type} (cx : α → α → α × α) (s : List α) (p : Comparator) : List α :=
  match s[p.1]?, s[p.2]? with
  | some a, some b => (s.set p.1 (cx a b).1).set p.2 (cx a b).2
  | _, _ => s

/-- One stage. Its comparators touch disjoint positions, so each reads what stood there before the stage
whatever the order in which they are applied (rule R100; DEDUCED, log entry 14). -/
def applyStage {α : Type} (cx : α → α → α × α) (s : List α) (st : List Comparator) : List α :=
  st.foldl (compareAt cx) s

/-- A network: its stages one after another (rule R100). -/
def applyNetwork {α : Type} (cx : α → α → α × α) (net : Network) (s : List α) : List α :=
  net.foldl (applyStage cx) s

/-- stage(k, j) of rule R101 on `w` positions. -/
def sortStage (w k j : Nat) : List Comparator :=
  (List.range w).filterMap fun i =>
    if i < i ^^^ j then some (if i &&& k = 0 then (i, i ^^^ j) else (i ^^^ j, i)) else none

/-- The `p + 1` stages of phase k = 2^(p+1): j = 2^p, ..., 2, 1 (rule R101). -/
def sortPhase (w p : Nat) : Network :=
  (List.range (p + 1)).map fun q => sortStage w (2 ^ (p + 1)) (2 ^ (p - q))

/-- NET_SORT on `2^logw` positions (rule R101): phases k = 2, 4, ..., 2^logw. -/
def sortNetwork (logw : Nat) : Network := (List.range logw).flatMap (sortPhase (2 ^ logw))

/-- stage(d) of rule R104 on `n` positions, all comparators ascending. -/
def mergeStage (n d : Nat) : List Comparator :=
  (List.range n).filterMap fun i => if i &&& d = 0 then some (i, i + d) else none

/-- The stages of NET_MERGE on `2W = 2^(logw+1)` positions: d = W, W/2, ..., 1 (rule R104). -/
def mergeNetwork (logw : Nat) : Network :=
  (List.range (logw + 1)).map fun q => mergeStage (2 ^ (logw + 1)) (2 ^ (logw - q))

/-- NET_SORT(W) applied to the lanes of one register (rules R101 and R103). -/
def sortLanes (c : Config) (s : List Elem) : List Elem := applyNetwork (cmpx c) (sortNetwork c.logw) s

/-- NET_MERGE(W) applied to two registers (rule R104): A followed by B reversed, the stages, then the two halves. -/
def mergeLanes (c : Config) (a b : List Elem) : List Elem × List Elem :=
  let s := applyNetwork (cmpx c) (mergeNetwork c.logw) (a ++ b.reverse)
  (s.take c.w, s.drop c.w)

end Sys2Proof.Machine
end

