-- ==== Sys2Proof/Syntax.lean ====
section
/-! DEFINITION. The commands of USCORE: one constructor per row of spec/opcode_table.json. -/

namespace Sys2Proof

/-- The eleven commands (rule R3, 00_scope.md; operands as in rule R71, 30_encoding.md). -/
inductive Instr where
  /-- LOADREG vd, addr (rule R85) -/
  | loadReg (vd : RegNum) (addr : Word)
  /-- STOREREG vs, addr (rule R86) -/
  | storeReg (vs : RegNum) (addr : Word)
  /-- MINMAX va, vb (rule R87) -/
  | minMax (va vb : RegNum)
  /-- MASKEDMINMAX va, vb, pat (rule R89) -/
  | maskedMinMax (va vb : RegNum) (pat : PatNum)
  /-- REVERSE vd, vs (rule R90) -/
  | reverse (vd vs : RegNum)
  /-- TRANSPOSE (rule R91) -/
  | transpose
  /-- INTRASORT vd, vs (rule R103) -/
  | intraSort (vd vs : RegNum)
  /-- INTRASORT2 va, vb (rule R106) -/
  | intraSort2 (va vb : RegNum)
  /-- MASKEDINTRASORT2 va, vb (rule R107) -/
  | maskedIntraSort2 (va vb : RegNum)
  /-- BITONICMERGE va, vb (rule R108) -/
  | bitonicMerge (va vb : RegNum)
  /-- SORTBLOCK addr (rule R122) -/
  | sortBlock (addr : Word)
deriving DecidableEq, Repr

end Sys2Proof
end

