-- ==== Sys2Proof/WellFormed.lean ====
section
/-! DEFINITION. The operand conditions a mask cannot express: distinct registers (rule R63) and a pattern the
instance has (rule R64, 30_encoding.md). -/

namespace Sys2Proof

/-- Rule R63: the five commands that update two registers in place name two different registers. -/
def Instr.distinctRegs (i : Instr) : Bool :=
  match i with
  | .loadReg _ _ => true
  | .storeReg _ _ => true
  | .minMax va vb => decide (va ≠ vb)
  | .maskedMinMax va vb _ => decide (va ≠ vb)
  | .reverse _ _ => true
  | .transpose => true
  | .intraSort _ _ => true
  | .intraSort2 va vb => decide (va ≠ vb)
  | .maskedIntraSort2 va vb => decide (va ≠ vb)
  | .bitonicMerge va vb => decide (va ≠ vb)
  | .sortBlock _ => true

/-- Rule R64: the pattern number of MASKEDMINMAX is at most LOGW. -/
def Instr.patternInRange (c : Config) (i : Instr) : Bool :=
  match i with
  | .loadReg _ _ => true
  | .storeReg _ _ => true
  | .minMax _ _ => true
  | .maskedMinMax _ _ pat => decide (pat.val ≤ c.logw)
  | .reverse _ _ => true
  | .transpose => true
  | .intraSort _ _ => true
  | .intraSort2 _ _ => true
  | .maskedIntraSort2 _ _ => true
  | .bitonicMerge _ _ => true
  | .sortBlock _ => true

/-- The instructions decoding can produce on instance `c` (rule R67, steps 5 and 6). -/
def Instr.wf (c : Config) (i : Instr) : Bool := i.distinctRegs && i.patternInRange c

end Sys2Proof
end

