-- ==== Sys2Proof/Decode.lean ====
section
/-! DEFINITION. The command word: its fields, the decoder (rules R60 to R69, 30_encoding.md) and the encoder (rule R71). -/

namespace Sys2Proof

/-- Why a word is not a command (rule R131). Rule R67: all causes give the same fault with the same recorded
values, so which name is given is not observable. -/
inductive DecodeError where
  /-- ZERO is not zero (rule R62) -/
  | zeroFieldNotZero
  /-- OP is not one of 0x01 to 0x0B (rules R66, R68, R69) -/
  | unassignedOpcode
  /-- a field the format does not use is not zero (rule R62) -/
  | unusedFieldNotZero
  /-- RA = RB in a command that updates two registers (rule R63) -/
  | sameRegisterTwice
  /-- PAT > LOGW in MASKEDMINMAX (rule R64) -/
  | patternOutOfRange
deriving DecidableEq, Repr

/-- OP = C[63:56] (rule R60). -/
def fieldOp (w : CmdWord) : BitVec 8 := w.extractLsb' 56 8

/-- RA = C[55:52] (rule R60). -/
def fieldRA (w : CmdWord) : RegNum := (w.extractLsb' 52 4).toFin

/-- RB = C[51:48] (rule R60). -/
def fieldRB (w : CmdWord) : RegNum := (w.extractLsb' 48 4).toFin

/-- PAT = C[47:44] (rule R60). -/
def fieldPat (w : CmdWord) : PatNum := (w.extractLsb' 44 4).toFin

/-- ZERO = C[43:32] (rule R60). -/
def fieldZero (w : CmdWord) : BitVec 12 := w.extractLsb' 32 12

/-- ADDR = C[31:0] (rule R60). -/
def fieldAddr (w : CmdWord) : Word := w.extractLsb' 0 32

/-- Rule R62: the instruction, where the fields its format does not use are zero. -/
def whenUnusedZero (unusedAreZero : Bool) (i : Instr) : Except DecodeError Instr :=
  if unusedAreZero then .ok i else .error .unusedFieldNotZero

/-- Steps 3 and 4 of rule R67: the opcode map of rule R66 with the formats of rule R61. -/
def decodeFields (op : BitVec 8) (ra rb : RegNum) (pat : PatNum) (addr : Word) : Except DecodeError Instr :=
  match op.toNat with
  | 0x01 => whenUnusedZero (rb == 0 && pat == 0) (.loadReg ra addr)
  | 0x02 => whenUnusedZero (rb == 0 && pat == 0) (.storeReg ra addr)
  | 0x03 => whenUnusedZero (pat == 0 && addr == 0) (.minMax ra rb)
  | 0x04 => whenUnusedZero (addr == 0) (.maskedMinMax ra rb pat)
  | 0x05 => whenUnusedZero (pat == 0 && addr == 0) (.reverse ra rb)
  | 0x06 => whenUnusedZero (ra == 0 && rb == 0 && pat == 0 && addr == 0) .transpose
  | 0x07 => whenUnusedZero (pat == 0 && addr == 0) (.intraSort ra rb)
  | 0x08 => whenUnusedZero (pat == 0 && addr == 0) (.intraSort2 ra rb)
  | 0x09 => whenUnusedZero (pat == 0 && addr == 0) (.maskedIntraSort2 ra rb)
  | 0x0A => whenUnusedZero (pat == 0 && addr == 0) (.bitonicMerge ra rb)
  | 0x0B => whenUnusedZero (ra == 0 && rb == 0 && pat == 0) (.sortBlock addr)
  | _ => .error .unassignedOpcode

/-- Steps 5 and 6 of rule R67: the conditions on operand values. -/
def checkOperands (c : Config) (i : Instr) : Except DecodeError Instr :=
  if !i.distinctRegs then .error .sameRegisterTwice
  else if !i.patternInRange c then .error .patternOutOfRange
  else .ok i

/-- Decode(C) of rule R67, total on every 64-bit word; an error is the fault ILLEGAL of rule R131. -/
def decode (c : Config) (w : CmdWord) : Except DecodeError Instr :=
  if fieldZero w ≠ 0 then .error .zeroFieldNotZero
  else
    match decodeFields (fieldOp w) (fieldRA w) (fieldRB w) (fieldPat w) (fieldAddr w) with
    | .error e => .error e
    | .ok i => checkOperands c i

/-- The word with the given fields and ZERO = 0 (rules R60 and R71). -/
def wordOf (op : BitVec 8) (ra rb : RegNum) (pat : PatNum) (addr : Word) : CmdWord :=
  op ++ (BitVec.ofFin ra : BitVec 4) ++ (BitVec.ofFin rb : BitVec 4) ++ (BitVec.ofFin pat : BitVec 4) ++
    (0 : BitVec 12) ++ addr

/-- The command word of an instruction (rule R71: each operand goes to its field, the other fields are zero;
opcodes of rule R66). -/
def encode (i : Instr) : CmdWord :=
  match i with
  | .loadReg vd addr => wordOf 0x01 vd 0 0 addr
  | .storeReg vs addr => wordOf 0x02 vs 0 0 addr
  | .minMax va vb => wordOf 0x03 va vb 0 0
  | .maskedMinMax va vb pat => wordOf 0x04 va vb pat 0
  | .reverse vd vs => wordOf 0x05 vd vs 0 0
  | .transpose => wordOf 0x06 0 0 0 0
  | .intraSort vd vs => wordOf 0x07 vd vs 0 0
  | .intraSort2 va vb => wordOf 0x08 va vb 0 0
  | .maskedIntraSort2 va vb => wordOf 0x09 va vb 0 0
  | .bitonicMerge va vb => wordOf 0x0A va vb 0 0
  | .sortBlock addr => wordOf 0x0B 0 0 0 addr

/-- The instruction the decoder reads from the word `w` of `nbits` bits, on the instance of State.reset
(log entry 10). A command word is one 64-bit value with no byte order (rule R60). -/
def decodeTableWord (nbits w : Nat) : Option Instr :=
  match decode Config.standard (BitVec.ofNat 64 (w % 2 ^ nbits)) with
  | .ok i => some i
  | .error _ => none

end Sys2Proof
end

