-- ==== Sys2Proof/Machine/State.lean ====
section
/-! DEFINITION. The state of a USCORE instance, all of it plain data, its value after reset, and the names of the stops. -/

namespace Sys2Proof.Machine

/-- Why the machine stops with a fault of the MODEL. The four faults of the spec (rule R130) are no stops of this
kind: a command that raises one takes the fault entry of rule R135, which is a next state. -/
inductive Fault where
  /-- Raised by the host's move that writes a byte of memory, and given by the host's read of one, when the address
  is not below MEM_BYTES (rule R45: no such byte exists). Safe: the spec gives such a write no effect and such a read
  no value (log entry 13). -/
  | hostAddressInvalid (addr : Word)
deriving DecidableEq, Repr

/-- Why the machine takes no step. -/
inductive Refusal where
  /-- Raised by the dispatch for an instruction without a meaning; no instruction of this model is. Safe. -/
  | notModelled (mnemonic : String)
  /-- Raised by the step when the host offers a command word while FAULT = 1 (rule R137: the word is not taken and
  the block has no step). Safe: the spec itself calls this a refusal (U11; log entry 8). -/
  | halted
deriving DecidableEq, Repr

/-- The data memory as a list of (address, byte) pairs, one for each byte that has been written; `Memory.wf` is its
canonical form (rules R34 and R45). -/
abbrev Memory := List Host.Cell

/-- A vector register with its valid bit (rules R20 to R22, 10_state.md). -/
structure VReg where
  /-- the lanes, lane 0 first (rule R21); W of them in every state that meets the invariant -/
  lanes : List Elem
  /-- VV[r]: true once a command has written the register (rule R22) -/
  valid : Bool
deriving DecidableEq, Repr

/-- What the host can do between two commands (rules R50 and R143); log entry 6. Reading is no move: it has no
effect (rules R28 and R45). -/
inductive HostMove where
  /-- offer a command word on the command port (rule R60) -/
  | command (word : CmdWord)
  /-- write one byte of the data memory (rule R50) -/
  | writeByte (addr : Word) (byte : Byte)
  /-- write through the status port, which has no effect (rule R28) -/
  | statusWrite (offset : Nat) (value : Word)
  /-- assert reset (rule R160) -/
  | reset
deriving DecidableEq, Repr

/-- The state. Every field but the last two is the spec's (INVENTORY.md, State). -/
structure State where
  /-- the instance parameters (rules R5 and R7); nothing changes them -/
  cfg : Config
  /-- V[0] to V[15] with VV[0] to VV[15] (rules R20 and R22) -/
  regs : Vector VReg 16
  /-- FAULT (rule R30) -/
  fault : Bool
  /-- FCODE (rule R30) -/
  fcode : BitVec 4
  /-- FADDR (rule R33) -/
  faddr : Word
  /-- FCMD, read as FCMDLO and FCMDHI (rule R33) -/
  fcmd : CmdWord
  /-- CMDCNT, the number of commands completed since reset modulo 2^32 (rule R27) -/
  cmdcnt : Word
  /-- the data memory (rule R34) -/
  mem : Memory
  /-- the MODEL's own field: the host's moves still to come, the next one first (log entry 6) -/
  host : List HostMove
  /-- the MODEL's own field: how many free draws have been taken (log entry 4) -/
  draws : Nat
deriving DecidableEq, Repr

/-- The state of an instance after power-on, which is its state after reset (rule R160): no valid register, no
fault, CMDCNT 0. The lanes are zero, which no command can observe (DESIGN CHOICE, log entry 3); no byte of memory
is listed, so that each is a free value (rule R161; log entry 5); the host has no move pending (DESIGN CHOICE, log
entry 6). -/
def State.powerOn (c : Config) : State :=
  { cfg := c
    regs := Vector.replicate 16 { lanes := List.replicate c.w 0, valid := false }
    fault := false
    fcode := 0
    faddr := 0
    fcmd := 0
    cmdcnt := 0
    mem := []
    host := []
    draws := 0 }

/-- The machine right after reset, for the instance `Config.standard` (log entries 1 and 2). -/
def State.reset : State := State.powerOn Config.standard

end Sys2Proof.Machine
end

