-- ==== Sys2Proof/Machine/Ops.lean ====
section
/-! DEFINITION. The named operations over memory, registers and the control registers: element access, register
access, the fault entry (rule R135), the count, reset, and the host's moves. -/

namespace Sys2Proof.Machine

/-! ### Memory -/

/-- The byte last written at address `a`, by a command or by the host; none where neither has written (rules R45
and R161). -/
def Memory.written (m : Memory) (a : Nat) : Option Byte :=
  match m with
  | [] => none
  | (b, x) :: rest => if b = a then some x else Memory.written rest a

/-- What an unlisted address reads as: the free value of a byte that nothing has written (rule R161, U7; DESIGN
CHOICE, log entry 5). -/
def Memory.unlisted (a : Nat) : Byte := Config.freeByte a

/-- M[a], the byte at address `a` (rule R40): the last value written (rule R45), and arbitrary before the first
write (rule R161). -/
def Memory.read (m : Memory) (a : Nat) : Byte := (m.written a).getD (Memory.unlisted a)

/-- Put an entry in address order into a list that has none for its address. -/
def Memory.insert (m : Memory) (a : Nat) (x : Byte) : Memory :=
  match m with
  | [] => [(a, x)]
  | (b, y) :: rest => if a < b then (a, x) :: (b, y) :: rest else (b, y) :: Memory.insert rest a x

/-- M[a] <- x: every other byte keeps its value (rule R41). A written byte is always listed, since no byte can be
compared with the free value of an unlisted one (log entry 5). -/
def Memory.write (m : Memory) (a : Nat) (x : Byte) : Memory :=
  Memory.insert (m.filter (fun e => e.1 != a)) a x

/-- The addresses of a list rise strictly, from `low` on. -/
def Memory.risesFrom (low : Nat) (m : Memory) : Bool :=
  match m with
  | [] => true
  | (b, _) :: rest => decide (low ≤ b) && Memory.risesFrom (b + 1) rest

/-- The canonical form: one entry for each address that has been written, addresses strictly rising. -/
def Memory.wf (m : Memory) : Bool := Memory.risesFrom 0 m

/-- MemRead(addr, n) of rule R40: `n` bytes as an unsigned number, the lowest address least significant. -/
def memRead (m : Memory) (a n : Nat) : Nat :=
  match n with
  | 0 => 0
  | k + 1 => (m.read a).toNat + 256 * memRead m (a + 1) k

/-- MemWrite(addr, n, v) of rule R41: byte k of `v` to address `a + k`, for k < n. -/
def memWrite (m : Memory) (a n v : Nat) : Memory :=
  match n with
  | 0 => m
  | k + 1 => memWrite (m.write a (BitVec.ofNat 8 v)) (a + 1) k (v / 256)

/-- The element at byte address `a`: MemRead(a, EBYTES). -/
def readElem (c : Config) (m : Memory) (a : Nat) : Elem := BitVec.ofNat 64 (memRead m a c.ebytes)

/-- LoadRow(a) of rule R42: lane i is the element at `a + i*EBYTES`. -/
def loadRow (c : Config) (m : Memory) (a : Nat) : List Elem :=
  (List.range c.w).map fun i => readElem c m (a + i * c.ebytes)

/-- StoreRow(a, s) of rule R42: lane i to `a + i*EBYTES`, for i = 0 to W-1; the inverse of LoadRow (rule R93 (e)). -/
def storeRow (c : Config) (m : Memory) (a : Nat) (s : List Elem) : Memory :=
  (List.range c.w).foldl (fun m i => memWrite m (a + i * c.ebytes) c.ebytes (s.getD i 0).toNat) m

/-- The W rows of the block at `a` (rule R120): row r is the row at `a + r*VBYTES`. -/
def loadBlock (c : Config) (m : Memory) (a : Nat) : List (List Elem) :=
  (List.range c.w).map fun r => loadRow c m (a + r * c.vbytes)

/-- Step 4 of rule R122: row r to `a + r*VBYTES`, for r = 0 to W-1. -/
def storeBlock (c : Config) (m : Memory) (a : Nat) (rows : List (List Elem)) : Memory :=
  (List.range c.w).foldl (fun m r => storeRow c m (a + r * c.vbytes) (rows.getD r [])) m

/-! ### Vector registers -/

/-- Register r with its valid bit. -/
def State.reg (s : State) (r : RegNum) : VReg := s.regs[r.val]

/-- VV[r] (rule R22). -/
def State.valid (s : State) (r : RegNum) : Bool := (s.reg r).valid

/-- V[r][i] (rule R9). -/
def State.lane (s : State) (r : RegNum) (i : Nat) : Elem := (s.reg r).lanes.getD i 0

/-- The sequence V[r][0], ..., V[r][W-1] (rules R21 and R23). -/
def State.lanes (s : State) (r : RegNum) : List Elem := (List.range s.cfg.w).map (s.lane r)

/-- V[r] <- l (rule R22): the whole register, and its valid bit becomes 1. -/
def State.writeReg (s : State) (r : RegNum) (l : List Elem) : State :=
  { s with regs := s.regs.set r.val { lanes := l, valid := true } }

/-- V[r] <- rows[r] for r = 0 to W-1; V[W] to V[15] keep what they hold (rules R24, R91, R122). -/
def State.writeBlockRegs (s : State) (rows : List (List Elem)) : State :=
  { s with regs := Vector.ofFn fun r : Fin 16 =>
      if r.val < s.cfg.w then { lanes := rows.getD r.val [], valid := true } else s.reg r }

/-- The memory replaced; every other field keeps its value. -/
def State.setMem (s : State) (m : Memory) : State := { s with mem := m }

/-! ### Faults, the count, reset -/

/-- The four faults of rule R130, with the address they record. -/
inductive FaultCause where
  /-- the word is not a command (rule R131) -/
  | illegal
  /-- a source register no command has written (rule R132) -/
  | unwritten
  /-- ADDR is not a multiple of VBYTES (rule R133) -/
  | misaligned (addr : Word)
  /-- the access leaves the memory (rule R134) -/
  | bounds (addr : Word)
deriving DecidableEq, Repr

/-- The code the fault entry writes to FCODE (rule R130). -/
def FaultCause.code (f : FaultCause) : BitVec 4 :=
  match f with
  | .illegal => 1
  | .unwritten => 2
  | .misaligned _ => 3
  | .bounds _ => 4

/-- The address information: ADDR for MISALIGNED and BOUNDS, else 0 (rules R33 and R135). -/
def FaultCause.address (f : FaultCause) : Word :=
  match f with
  | .illegal => 0
  | .unwritten => 0
  | .misaligned a => a
  | .bounds a => a

/-- Fault entry (rule R135): these four registers, together, and nothing else. There is no return from a fault
(rule R140); only reset clears them. -/
def State.enterFault (s : State) (f : FaultCause) (w : CmdWord) : State :=
  { s with fault := true, fcode := f.code, faddr := f.address, fcmd := w }

/-- CMDCNT <- (CMDCNT + 1) mod 2^32 (rule R27; step 7 of rule R92). -/
def State.count (s : State) : State := { s with cmdcnt := s.cmdcnt + 1 }

/-- An element of EBITS bits from a free value. -/
def elemOf (c : Config) (v : Elem) : Elem := BitVec.ofNat 64 (v.toNat % 2 ^ c.ebits)

/-- Reset (rules R160 and R161): the valid bits, the fault registers and CMDCNT become 0, memory and the instance
are untouched, and the lanes take no defined value (free values, log entry 4). -/
def State.applyReset (s : State) : State :=
  { s with
    regs := Vector.ofFn fun r : Fin 16 =>
      { lanes := (List.range s.cfg.w).map fun i => elemOf s.cfg (Config.freeLane s.draws r i), valid := false }
    fault := false
    fcode := 0
    faddr := 0
    fcmd := 0
    cmdcnt := 0
    draws := s.draws + 1 }

/-! ### How a command ends -/

/-- The end of a command (rule R92): the first check that fails is the fault the command takes, with `encode i`
as the faulting word (log entry 10); a command whose checks pass takes its effect and is counted. -/
def conclude (i : Instr) (s : State) (effect : Except FaultCause State) : Host.Outcome State Fault Refusal :=
  match effect with
  | .error f => .next (s.enterFault f (encode i))
  | .ok t => .next t.count

/-! ### The host's moves -/

/-- The state after the host's next move has been taken from the list. -/
def State.popHost (s : State) (rest : List HostMove) : State := { s with host := rest }

/-- The host writes one byte (rule R50). No byte exists at or above MEM_BYTES (rule R45), where the model stops
(DESIGN CHOICE, log entry 13). -/
def State.hostWriteByte (s : State) (addr : Word) (x : Byte) : Host.Outcome State Fault Refusal :=
  if addr.toNat < s.cfg.memBytes then .next (s.setMem (s.mem.write addr.toNat x))
  else .fault (.hostAddressInvalid addr)

/-- A write through the status port has no effect (rule R28). -/
def State.hostStatusWrite (s : State) (_offset : Nat) (_value : Word) : Host.Outcome State Fault Refusal := .next s

/-- The byte the host reads at an address (rule R50); reading has no effect (rule R45). What a read gives at or
above MEM_BYTES, where no byte exists, the spec leaves to the platform: the model gives the fault
`hostAddressInvalid`, as for a write (DESIGN CHOICE, log entry 13). -/
def State.hostReadByte (s : State) (addr : Word) : Except Fault Byte :=
  if addr.toNat < s.cfg.memBytes then .ok (s.mem.read addr.toNat) else .error (.hostAddressInvalid addr)

end Sys2Proof.Machine
end

