-- ==== Sys2Proof/Machine/Operands.lean ====
section
/-! DEFINITION. The operand checks of a command in the order of rule R92 (40_vector_ops.md): registers, then address. -/

namespace Sys2Proof.Machine

/-- Rule R63: the two registers of an in-place pair are different; otherwise ILLEGAL. Decoding never gives such a
pair, so this is met by an ill-formed term only (log entry 10). -/
def checkDistinct (va vb : RegNum) : Except FaultCause Unit :=
  if va = vb then .error .illegal else .ok ()

/-- Rule R64: PAT is at most LOGW; otherwise ILLEGAL (log entry 10). -/
def checkPattern (c : Config) (pat : PatNum) : Except FaultCause Unit :=
  if pat.val ≤ c.logw then .ok () else .error .illegal

/-- rdreg(r) of rule R23. -/
def readReg (s : State) (r : RegNum) : Except FaultCause (List Elem) :=
  if s.valid r then .ok (s.lanes r) else .error .unwritten

/-- rdreg of V[va], then of V[vb] (rules R24 and R87). -/
def readPair (s : State) (va vb : RegNum) : Except FaultCause (List Elem × List Elem) := do
  let a ← readReg s va
  let b ← readReg s vb
  pure (a, b)

/-- Whether all of V[0] to V[W-1] have been written. -/
def blockRegsValid (s : State) : Bool := (List.range s.cfg.w).all fun r => s.valid (Fin.ofNat 16 r)

/-- rdreg of V[0] to V[W-1] (rule R91). Which of them is invalid is not recorded (rule R132), so one test of all of
them gives what reading them in order gives (DEDUCED, log entry 15). -/
def readBlockRegs (s : State) : Except FaultCause (List (List Elem)) :=
  if blockRegsValid s then .ok ((List.range s.cfg.w).map fun r => s.lanes (Fin.ofNat 16 r)) else .error .unwritten

/-- CheckAddr(addr, nbytes) of rule R43, in unbounded integers. -/
def checkAddr (c : Config) (addr : Word) (nbytes : Nat) : Except FaultCause Unit :=
  if addr.toNat % c.vbytes ≠ 0 then .error (.misaligned addr)
  else if c.memBytes < addr.toNat + nbytes then .error (.bounds addr)
  else .ok ()

/-- V[va] <- p.1; V[vb] <- p.2. -/
def State.writePair (s : State) (va vb : RegNum) (p : List Elem × List Elem) : State :=
  (s.writeReg va p.1).writeReg vb p.2

end Sys2Proof.Machine
end

