-- ==== Sys2Proof/Machine/VectorOps.lean ====
section
/-! DEFINITION. The VectorOps commands: LOADREG, STOREREG, MINMAX, MASKEDMINMAX, REVERSE, TRANSPOSE (40_vector_ops.md). -/

namespace Sys2Proof.Machine

/-- The elementwise compare-exchange of two registers (rule R87), which rearranges their lanes and leaves each lane of
the first le the same lane of the second (rule R93, (a) and (b)). -/
def minMaxLanes (c : Config) (a b : List Elem) : List Elem × List Elem :=
  (List.zipWith (minT c) a b, List.zipWith (maxT c) a b)

/-- PI_p(i) = i xor (2^p - 1) (rule R88). -/
def patternLane (p i : Nat) : Nat := i ^^^ (2 ^ p - 1)

/-- Pattern p of rule R88: the pairs (i, PI_p(i)) for i = 0 to W-1. -/
def patternPairs (w p : Nat) : List (Nat × Nat) := (List.range w).map fun i => (i, patternLane p i)

/-- The masked compare-exchange for any pattern (rule R89): lanes no pair names pass through, and all pairs read
the old registers; a rearrangement of their lanes (rule R93 (a)). -/
def maskedLanes (c : Config) (pairs : List (Nat × Nat)) (a b : List Elem) : List Elem × List Elem :=
  (pairs.foldl (fun s p => s.set p.1 (minT c (a.getD p.1 0) (b.getD p.2 0))) a,
   pairs.foldl (fun s p => s.set p.2 (maxT c (a.getD p.1 0) (b.getD p.2 0))) b)

/-- N[i][j] = M[j][i] for i, j < W (rule R91), its own inverse (rule R93 (c)). -/
def transposeRows (w : Nat) (rows : List (List Elem)) : List (List Elem) :=
  (List.range w).map fun i => (List.range w).map fun j => (rows.getD j []).getD i 0

/-- LOADREG vd, addr (rule R85). -/
def execLoadReg (vd : RegNum) (addr : Word) (s : State) : Host.Outcome State Fault Refusal :=
  conclude (.loadReg vd addr) s do
    checkAddr s.cfg addr s.cfg.vbytes
    pure (s.writeReg vd (loadRow s.cfg s.mem addr.toNat))

/-- STOREREG vs, addr (rule R86): the register check comes before the address check. -/
def execStoreReg (vs : RegNum) (addr : Word) (s : State) : Host.Outcome State Fault Refusal :=
  conclude (.storeReg vs addr) s do
    let l ← readReg s vs
    checkAddr s.cfg addr s.cfg.vbytes
    pure (s.setMem (storeRow s.cfg s.mem addr.toNat l))

/-- MINMAX va, vb (rule R87). -/
def execMinMax (va vb : RegNum) (s : State) : Host.Outcome State Fault Refusal :=
  conclude (.minMax va vb) s do
    checkDistinct va vb
    let p ← readPair s va vb
    pure (s.writePair va vb (minMaxLanes s.cfg p.1 p.2))

/-- MASKEDMINMAX va, vb, pat (rule R89). -/
def execMaskedMinMax (va vb : RegNum) (pat : PatNum) (s : State) : Host.Outcome State Fault Refusal :=
  conclude (.maskedMinMax va vb pat) s do
    checkDistinct va vb
    checkPattern s.cfg pat
    let p ← readPair s va vb
    pure (s.writePair va vb (maskedLanes s.cfg (patternPairs s.cfg.w pat.val) p.1 p.2))

/-- REVERSE vd, vs (rule R90), its own inverse (rule R93 (d)). -/
def execReverse (vd vs : RegNum) (s : State) : Host.Outcome State Fault Refusal :=
  conclude (.reverse vd vs) s do
    let l ← readReg s vs
    pure (s.writeReg vd l.reverse)

/-- TRANSPOSE (rule R91). -/
def execTranspose (s : State) : Host.Outcome State Fault Refusal :=
  conclude .transpose s do
    let rows ← readBlockRegs s
    pure (s.writeBlockRegs (transposeRows s.cfg.w rows))

end Sys2Proof.Machine
end

