-- ==== Sys2Proof/Machine/BlockSort.lean ====
section
/-! DEFINITION. The BlockSort command: SORTBLOCK (42_block_sort.md). -/

namespace Sys2Proof.Machine

/-- COLSORT (rule R121): NET_SORT(W) with whole rows as positions and the compare-exchange of rule R87 as
comparator, which sorts every column. -/
def columnSort (c : Config) (rows : List (List Elem)) : List (List Elem) :=
  applyNetwork (minMaxLanes c) (sortNetwork c.logw) rows

/-- Steps 2 and 3 of rule R122: the sorted columns, each laid out as a row. -/
def sortedBlockRows (c : Config) (rows : List (List Elem)) : List (List Elem) :=
  transposeRows c.w (columnSort c rows)

/-- SORTBLOCK addr (rule R122): the whole block is checked before the first byte is read. -/
def execSortBlock (addr : Word) (s : State) : Host.Outcome State Fault Refusal :=
  conclude (.sortBlock addr) s do
    checkAddr s.cfg addr s.cfg.blockBytes
    let rows := sortedBlockRows s.cfg (loadBlock s.cfg s.mem addr.toNat)
    pure ((s.setMem (storeBlock s.cfg s.mem addr.toNat rows)).writeBlockRegs rows)

end Sys2Proof.Machine
end

