-- ==== Sys2Proof/Machine/SortingNetwork.lean ====
section
/-! DEFINITION. The SortingNetwork commands: INTRASORT, INTRASORT2, MASKEDINTRASORT2, BITONICMERGE
(41_sorting_network.md). -/

namespace Sys2Proof.Machine

/-- What the three two-register merge commands share (rules R106 to R108): the checks, NET_MERGE(W) and the two
writes. The instruction is passed for the fault entry. -/
def mergePair (i : Instr) (va vb : RegNum) (s : State) : Host.Outcome State Fault Refusal :=
  conclude i s do
    checkDistinct va vb
    let p ← readPair s va vb
    pure (s.writePair va vb (mergeLanes s.cfg p.1 p.2))

/-- INTRASORT vd, vs (rule R103). -/
def execIntraSort (vd vs : RegNum) (s : State) : Host.Outcome State Fault Refusal :=
  conclude (.intraSort vd vs) s do
    let l ← readReg s vs
    pure (s.writeReg vd (sortLanes s.cfg l))

/-- INTRASORT2 va, vb (rule R106). -/
def execIntraSort2 (va vb : RegNum) (s : State) : Host.Outcome State Fault Refusal :=
  mergePair (.intraSort2 va vb) va vb s

/-- MASKEDINTRASORT2 va, vb (rule R107): the same function as INTRASORT2. -/
def execMaskedIntraSort2 (va vb : RegNum) (s : State) : Host.Outcome State Fault Refusal :=
  mergePair (.maskedIntraSort2 va vb) va vb s

/-- BITONICMERGE va, vb (rule R108): the reversed input is V[vb]. -/
def execBitonicMerge (va vb : RegNum) (s : State) : Host.Outcome State Fault Refusal :=
  mergePair (.bitonicMerge va vb) va vb s

end Sys2Proof.Machine
end

