-- ==== Sys2Proof/Machine/Dispatch.lean ====
section
/-! DEFINITION. The dispatch: one arm per constructor of Instr, each one direct call of its meaning. -/

namespace Sys2Proof.Machine

/-- What an instruction does; the accept step and decoding are the step's (rule R92, steps 1 and 2). -/
def exec (i : Instr) (s : State) : Host.Outcome State Fault Refusal :=
  match i with
  | .loadReg vd addr => Sys2Proof.Machine.execLoadReg vd addr s
  | .storeReg vs addr => Sys2Proof.Machine.execStoreReg vs addr s
  | .minMax va vb => Sys2Proof.Machine.execMinMax va vb s
  | .maskedMinMax va vb pat => Sys2Proof.Machine.execMaskedMinMax va vb pat s
  | .reverse vd vs => Sys2Proof.Machine.execReverse vd vs s
  | .transpose => Sys2Proof.Machine.execTranspose s
  | .intraSort vd vs => Sys2Proof.Machine.execIntraSort vd vs s
  | .intraSort2 va vb => Sys2Proof.Machine.execIntraSort2 va vb s
  | .maskedIntraSort2 va vb => Sys2Proof.Machine.execMaskedIntraSort2 va vb s
  | .bitonicMerge va vb => Sys2Proof.Machine.execBitonicMerge va vb s
  | .sortBlock addr => Sys2Proof.Machine.execSortBlock addr s

end Sys2Proof.Machine
end

