-- ==== Sys2Proof/Machine/Flags.lean ====
section
/-! DEFINITION. The status registers the host reads through the status port (rules R28 to R33, 10_state.md). USCORE
has no condition codes and no carry or overflow flags (rule R25). -/

namespace Sys2Proof.Machine

/-- The ETYPE code of CFG[1:0] (rule R29). -/
def etypeCode (e : EType) : Nat :=
  match e with
  | .i32 => 0
  | .i64 => 1
  | .f32 => 2
  | .f64 => 3

/-- CFG (rule R29): ETYPE in [1:0], WIDE in [2], W in [7:3], NREG = 16 in [12:8], zeros above. -/
def cfgWord (c : Config) : Word :=
  BitVec.ofNat 32 (etypeCode c.etype + c.wide.toNat * 2 ^ 2 + c.w * 2 ^ 3 + 16 * 2 ^ 8)

/-- STATUS (rule R30): FAULT in [0], FCODE in [7:4], zeros elsewhere. -/
def statusWord (s : State) : Word := BitVec.ofNat 32 (s.fault.toNat + s.fcode.toNat * 2 ^ 4)

/-- VVALID (rule R32): bit r is VV[r], zeros above bit 15. -/
def vvalidWord (s : State) : Word :=
  BitVec.ofNat 32 ((List.range 16).foldl (fun n r => n + (s.valid (Fin.ofNat 16 r)).toNat * 2 ^ r) 0)

/-- FCMDLO, bits [31:0] of the faulting word (rule R33). -/
def fcmdLo (s : State) : Word := s.fcmd.extractLsb' 0 32

/-- FCMDHI, bits [63:32] of the faulting word (rule R33). -/
def fcmdHi (s : State) : Word := s.fcmd.extractLsb' 32 32

/-- StatusRead(offset) of rule R28: seven registers, and 0 at every other offset. -/
def statusRead (s : State) (offset : Nat) : Word :=
  match offset with
  | 0x00 => cfgWord s.cfg
  | 0x04 => statusWord s
  | 0x08 => s.cmdcnt
  | 0x0C => vvalidWord s
  | 0x10 => s.faddr
  | 0x14 => fcmdLo s
  | 0x18 => fcmdHi s
  | _ => 0

end Sys2Proof.Machine
end

