-- ==== Sys2Proof/Machine/Run.lean ====
section
/-! DEFINITION. What the step is made of: accepting, decoding and executing a command word (rule R92), the host's
other moves, and being idle. -/

namespace Sys2Proof.Machine

/-- Decode and execute a word the block has accepted (rule R92, from step 2 on): a word that is no command takes
the fault ILLEGAL with the word itself recorded (rules R131 and R135). -/
def runWord (w : CmdWord) (s : State) : Host.Outcome State Fault Refusal :=
  match decode s.cfg w with
  | .error _ => .next (s.enterFault .illegal w)
  | .ok i => exec i s

/-- Step 1 of rule R92: a word is taken only while FAULT = 0; while FAULT = 1 the block has no step for it (rule
R137; log entry 8). -/
def acceptWord (w : CmdWord) (s : State) : Host.Outcome State Fault Refusal :=
  if s.fault then .refused .halted else runWord w s

/-- One move of the host takes effect, whole (rules R48 and R50). -/
def takeMove (m : HostMove) (s : State) : Host.Outcome State Fault Refusal :=
  match m with
  | .command w => acceptWord w s
  | .writeByte addr x => s.hostWriteByte addr x
  | .statusWrite offset value => s.hostStatusWrite offset value
  | .reset => .next s.applyReset

/-- Between commands the block is idle with all state held (rule R147; log entry 7). -/
def idle (s : State) : Host.Outcome State Fault Refusal := .next s

/-- The host's moves with the command word `w` of `nbits` bits put before them (log entry 6). -/
def offerWord (nbits w : Nat) (moves : List HostMove) : List HostMove :=
  .command (BitVec.ofNat 64 (w % 2 ^ nbits)) :: moves

end Sys2Proof.Machine
end

