-- ==== Sys2Proof/Machine/Step.lean ====
section
/-! DEFINITION. The step: the host's next move takes effect, or the block is idle. -/

namespace Sys2Proof.Machine

/-- One step of the machine: the host's next move, taken from the list, takes effect (rule R50; log entry 6). -/
def step (s : State) : Host.Outcome State Fault Refusal :=
  match s.host with
  | [] => idle s
  | m :: rest => takeMove m (s.popHost rest)

/-- The state in which the host's next move is the command word `w` of `nbits` bits (log entry 6): what this
machine, which fetches nothing (rule R26), has in place of an instruction at the program counter. -/
def State.withFetchWord (s : State) (nbits w : Nat) : State := { s with host := offerWord nbits w s.host }

end Sys2Proof.Machine
end

