-- ==== Sys2Proof/Safety.lean ====
section
/-! DEFINITION. The terms claims are stated in: the invariant, sortedness, what stays the same, and how a run ends. -/

namespace Sys2Proof.Machine

/-! ### The invariant -/

/-- A register holds exactly W elements of EBITS bits (rules R20 and R8). -/
def VReg.wf (c : Config) (v : VReg) : Bool :=
  v.lanes.length == c.w && v.lanes.all fun x => decide (x.toNat < 2 ^ c.ebits)

/-- Every listed byte is at a valid address (rule R45). -/
def Memory.below (m : Memory) (bound : Nat) : Bool := m.all fun e => decide (e.1 < bound)

/-- What the fault registers can read (rules R30, R33, R130): all 0 while FAULT = 0; otherwise a code from 1 to 4,
with FADDR 0 after ILLEGAL and UNWRITTEN. -/
def faultRegsOk (s : State) : Bool :=
  if s.fault then
    decide (1 ≤ s.fcode.toNat) && decide (s.fcode.toNat ≤ 4) && (decide (3 ≤ s.fcode.toNat) || s.faddr == 0)
  else s.fcode == 0 && s.faddr == 0 && s.fcmd == 0

/-- The invariant of the machine: a legal instance, a canonical memory inside it, registers of W elements of EBITS
bits, and fault registers that hang together. -/
def State.invariant (s : State) : Bool :=
  s.cfg.wf && s.mem.wf && s.mem.below s.cfg.memBytes && s.regs.toList.all (VReg.wf s.cfg) && faultRegsOk s

/-- The invariant as a proposition. -/
abbrev State.Inv (s : State) : Prop := s.invariant = true

/-! ### Sequences -/

/-- An element of EBITS bits (rule R8). -/
abbrev IsElem (c : Config) (v : Elem) : Prop := v.toNat < 2 ^ c.ebits

/-- Ascending (rule R10): le holds for every adjacent pair. -/
abbrev Ascending (c : Config) (l : List Elem) : Prop := l.IsChain (elemLe c)

/-- `t` is sorted(s) of rule R10: the ascending arrangement of the elements of `s`. -/
def IsSortedOf (c : Config) (t s : List Elem) : Prop := t.Perm s ∧ Ascending c t

/-! ### What stays the same -/

/-- Every register but those named keeps its lanes and its valid bit. -/
def SameRegsExcept (named : List RegNum) (s t : State) : Prop := ∀ r, r ∉ named → t.reg r = s.reg r

/-- The registers V[0] to V[W-1] (rule R24). -/
def blockRegs (c : Config) : List RegNum := (List.finRange 16).filter fun r => decide (r.val < c.w)

/-- Every byte of memory reads as before. -/
def SameMemory (s t : State) : Prop := ∀ a, t.mem.read a = s.mem.read a

/-- Every byte outside the `n` bytes from address `a` reads as before. -/
def SameMemoryOutside (a n : Nat) (s t : State) : Prop :=
  ∀ b, b < a ∨ a + n ≤ b → t.mem.read b = s.mem.read b

/-- The instance and the model's own fields keep their values. -/
def SameSurroundings (s t : State) : Prop := t.cfg = s.cfg ∧ t.host = s.host ∧ t.draws = s.draws

/-- FAULT, FCODE, FADDR and FCMD keep their values. -/
def SameFaultRegs (s t : State) : Prop :=
  t.fault = s.fault ∧ t.fcode = s.fcode ∧ t.faddr = s.faddr ∧ t.fcmd = s.fcmd

/-- What every completed command does besides its own effect: CMDCNT advances by one (rule R27), the fault
registers and the surroundings keep their values (rule R92). -/
def CountedOnly (s t : State) : Prop := t.cmdcnt = s.cmdcnt + 1 ∧ SameFaultRegs s t ∧ SameSurroundings s t

/-- The fault entry of rule R135 with code `code`, address `addr` and faulting word `w`, and nothing else changed. -/
def FaultTaken (code : BitVec 4) (addr : Word) (w : CmdWord) (s t : State) : Prop :=
  t.fault = true ∧ t.fcode = code ∧ t.faddr = addr ∧ t.fcmd = w ∧
    t.regs = s.regs ∧ t.mem = s.mem ∧ t.cmdcnt = s.cmdcnt ∧ SameSurroundings s t

/-- The frame of an instruction that writes no register but those named and no memory: what it leaves unchanged,
whether it completes or faults. CMDCNT (the spec's pc, rule R26) may change. -/
def RegisterFrame (i : Instr) (named : List RegNum) (s t : State) : Prop :=
  SameRegsExcept named s t ∧ SameMemory s t ∧ SameSurroundings s t ∧
    (SameFaultRegs s t ∨ ∃ code addr, FaultTaken code addr (encode i) s t)

/-- The frame of an instruction that writes the registers named and `n` bytes of memory from address `a`. -/
def StoringFrame (i : Instr) (named : List RegNum) (a n : Nat) (s t : State) : Prop :=
  SameRegsExcept named s t ∧ SameMemoryOutside a n s t ∧ SameSurroundings s t ∧
    (SameFaultRegs s t ∨ ∃ code addr, FaultTaken code addr (encode i) s t)

/-- Two states the host and the commands cannot tell apart: they differ at most in the lanes of registers whose
valid bit is 0 (rule R22). -/
def SameButUnwritten (s t : State) : Prop :=
  t.cfg = s.cfg ∧ SameFaultRegs s t ∧ t.cmdcnt = s.cmdcnt ∧ t.mem = s.mem ∧ t.host = s.host ∧ t.draws = s.draws ∧
    ∀ r, t.valid r = s.valid r ∧ (s.valid r = true → t.reg r = s.reg r)

/-- The same relation between two outcomes: both go on, in states the relation holds between, or both stop alike. -/
def OutcomesAgree (x y : Host.Outcome State Fault Refusal) : Prop :=
  match x, y with
  | .next s, .next t => SameButUnwritten s t
  | .fault f, .fault g => f = g
  | .refused f, .refused g => f = g
  | _, _ => False

/-! ### Illegal words -/

/-- The causes of ILLEGAL, as rule R131 lists them for a command word. -/
def IllegalWord (c : Config) (w : CmdWord) : Prop :=
  fieldZero w ≠ 0 ∨ (fieldOp w).toNat < 0x01 ∨ 0x0B < (fieldOp w).toNat ∨
    ((fieldOp w).toNat ∈ [0x06, 0x0B] ∧ fieldRA w ≠ 0) ∨
    ((fieldOp w).toNat ∈ [0x01, 0x02, 0x06, 0x0B] ∧ fieldRB w ≠ 0) ∨
    ((fieldOp w).toNat ≠ 0x04 ∧ fieldPat w ≠ 0) ∨
    ((fieldOp w).toNat ∉ [0x01, 0x02, 0x0B] ∧ fieldAddr w ≠ 0) ∨
    ((fieldOp w).toNat ∈ [0x03, 0x04, 0x08, 0x09, 0x0A] ∧ fieldRA w = fieldRB w) ∨
    ((fieldOp w).toNat = 0x04 ∧ c.logw < (fieldPat w).val)

/-! ### Addresses -/

/-- CheckAddr passes (rule R43). -/
def AddrOk (c : Config) (addr : Word) (nbytes : Nat) : Prop :=
  addr.toNat % c.vbytes = 0 ∧ addr.toNat + nbytes ≤ c.memBytes

/-! ### What a command checks -/

/-- The registers a command reads with rdreg, as rule R132 lists them. -/
def sources (c : Config) (i : Instr) : List RegNum :=
  match i with
  | .loadReg _ _ => []
  | .storeReg vs _ => [vs]
  | .minMax va vb => [va, vb]
  | .maskedMinMax va vb _ => [va, vb]
  | .reverse _ vs => [vs]
  | .transpose => blockRegs c
  | .intraSort _ vs => [vs]
  | .intraSort2 va vb => [va, vb]
  | .maskedIntraSort2 va vb => [va, vb]
  | .bitonicMerge va vb => [va, vb]
  | .sortBlock _ => []

/-- The bytes a command accesses, as a start and a length: those of LOADREG, STOREREG and SORTBLOCK (rule R43); the
other eight access no memory (rule R46). -/
def accessed (c : Config) (i : Instr) : Option (Word × Nat) :=
  match i with
  | .loadReg _ addr => some (addr, c.vbytes)
  | .storeReg _ addr => some (addr, c.vbytes)
  | .minMax _ _ => none
  | .maskedMinMax _ _ _ => none
  | .reverse _ _ => none
  | .transpose => none
  | .intraSort _ _ => none
  | .intraSort2 _ _ => none
  | .maskedIntraSort2 _ _ => none
  | .bitonicMerge _ _ => none
  | .sortBlock addr => some (addr, c.blockBytes)

/-! ### Sequences of commands -/

/-- Instructions executed one after another, each from the state the one before it left (rule R48). -/
def execSeq (is : List Instr) (s : State) : Host.Outcome State Fault Refusal :=
  match is with
  | [] => .next s
  | i :: rest =>
    match exec i s with
    | .next t => execSeq rest t
    | .fault f => .fault f
    | .refused r => .refused r

/-- The sequence of rule R124 that has the effect of SORTBLOCK: load the rows, one MINMAX per comparator of
NET_SORT(W), TRANSPOSE, store the rows. -/
def sortBlockProgram (c : Config) (addr : Word) : List Instr :=
  ((List.range c.w).map fun r => Instr.loadReg (Fin.ofNat 16 r) (addr + BitVec.ofNat 32 (r * c.vbytes))) ++
    (sortNetwork c.logw).flatten.map (fun p => Instr.minMax (Fin.ofNat 16 p.1) (Fin.ofNat 16 p.2)) ++
    [Instr.transpose] ++
    ((List.range c.w).map fun r => Instr.storeReg (Fin.ofNat 16 r) (addr + BitVec.ofNat 32 (r * c.vbytes)))

/-! ### Runs -/

/-- The words a run gives, as the host's moves (rule R170). -/
def offer (ws : List CmdWord) (s : State) : State := { s with host := ws.map HostMove.command }

/-- The run of the words `ws` from `s` ends well in `t` (rule R170): every word completes and FAULT = 0. -/
def EndsWell (ws : List CmdWord) (s t : State) : Prop :=
  Host.Core.run Sys2Proof.core ws.length (offer ws s) = .next t ∧ t.fault = false

end Sys2Proof.Machine
end

