-- ==== Sys2Proof/Certificates/Slice0/Obligations.lean ====
section
/-! DEFINITION. The statements about the machine, each from the rules its docstring names. -/

open Sys2Proof Sys2Proof.Machine

/-- The narrow I32 instance with the memory size of the spec's vectors T16, T32 and T40 (95_test_vectors.md). -/
def Sys2Proof.narrowI32 : Config := { wide := false, etype := .i32, memBytes := 0x200 }

/-! ### Encoding -/

/-- Command words written out from rules R60 and R66 (their list is T41's) decode to the command they stand for, on
the narrow I32 instance, and words that are no command do not decode. -/
def Obligations.SpecWordsDecode : Prop :=
  decode narrowI32 0x0130000000000040 = .ok (.loadReg 3 0x40) ∧
  decode narrowI32 0x02F0000000000020 = .ok (.storeReg 15 0x20) ∧
  decode narrowI32 0x03AB000000000000 = .ok (.minMax 10 11) ∧
  decode narrowI32 0x0412200000000000 = .ok (.maskedMinMax 1 2 2) ∧
  decode narrowI32 0x0543000000000000 = .ok (.reverse 4 3) ∧
  decode narrowI32 0x0600000000000000 = .ok .transpose ∧
  decode narrowI32 0x0700000000000000 = .ok (.intraSort 0 0) ∧
  decode narrowI32 0x0812000000000000 = .ok (.intraSort2 1 2) ∧
  decode narrowI32 0x0912000000000000 = .ok (.maskedIntraSort2 1 2) ∧
  decode narrowI32 0x0A21000000000000 = .ok (.bitonicMerge 2 1) ∧
  decode narrowI32 0x0B00000000000100 = .ok (.sortBlock 0x100) ∧
  decode narrowI32 0x0000000000000000 = .error .unassignedOpcode ∧
  decode narrowI32 0x0C00000000000000 = .error .unassignedOpcode ∧
  decode narrowI32 0x0110080000000040 = .error .zeroFieldNotZero ∧
  decode narrowI32 0x0312100000000000 = .error .unusedFieldNotZero ∧
  decode narrowI32 0x0422200000000000 = .error .sameRegisterTwice ∧
  decode narrowI32 0x0412400000000000 = .error .patternOutOfRange

/-- Decoding the word of a well-formed instruction gives that instruction back, for all eleven commands with every
operand at every value, on every instance (rules R67 and R71). -/
def Obligations.DecodeOfEncode : Prop :=
  ∀ (c : Config) (i : Instr), i.wf c = true → decode c (encode i) = .ok i

/-- A word that decodes is the word of the instruction it decodes to, which is well-formed: no bit of a word is
ignored, and no two words are one command (rules R62 and R67). -/
def Obligations.EncodeOfDecode : Prop :=
  ∀ (c : Config) (w : CmdWord) (i : Instr), decode c w = .ok i → encode i = w ∧ i.wf c = true

/-- Rule R131: a word raises ILLEGAL exactly for the causes the rule lists; the fault records the word and address 0
and nothing else changes. -/
def Obligations.IllegalWordsExactly : Prop :=
  (∀ (c : Config) (w : CmdWord), (∃ e, decode c w = .error e) ↔ IllegalWord c w) ∧
  ∀ (s : State) (w : CmdWord) (rest : List HostMove), s.host = .command w :: rest → s.fault = false →
    IllegalWord s.cfg w → ∃ t, step s = .next t ∧ FaultTaken 1 0 w (s.popHost rest) t

/-! ### The step -/

/-- Rules R70 and R92: with FAULT = 0, when the host's next move is a word that decodes to `i`, the step is `exec i`
in the state from which that move has been taken, in which nothing else differs. -/
def Obligations.StepRunsDecodedInstruction : Prop :=
  ∀ (s : State) (w : CmdWord) (rest : List HostMove) (i : Instr),
    s.host = .command w :: rest → s.fault = false → decode s.cfg w = .ok i →
      step s = exec i (s.popHost rest) ∧ (s.popHost rest).host = rest ∧
        s = { (s.popHost rest) with host := .command w :: rest }

/-- The state `withFetchWord` gives runs exactly the word it was given as its next step (the model's own way to
place a command, log entry 6); while FAULT = 1 the step is the refusal `halted` (the model's name for the stop, log
entry 8). -/
def Obligations.OfferedWordIsNext : Prop :=
  ∀ (s : State) (w : Nat),
    (s.fault = false → step (s.withFetchWord 64 w) = runWord (BitVec.ofNat 64 w) s) ∧
    (s.fault = true → step (s.withFetchWord 64 w) = .refused .halted)

/-- Rule R137: while FAULT = 1 a command word offered has no step, and no move of the host but reset changes a
register, the counter or the fault registers; only reset leaves the halted state. -/
def Obligations.HaltedUntilReset : Prop :=
  ∀ s : State, s.fault = true →
    (∀ w rest, s.host = .command w :: rest → ∀ t, step s ≠ .next t) ∧
    ∀ t, step s = .next t →
      (t.regs = s.regs ∧ t.cmdcnt = s.cmdcnt ∧ SameFaultRegs s t) ∨ ∃ rest, s.host = .reset :: rest ∧ t.fault = false

/-- With nothing to do the block is idle with all its state held (rule R147; that a step then exists is the model's
choice, log entry 7). -/
def Obligations.IdleHoldsState : Prop := ∀ s : State, s.host = [] → step s = .next s

/-- Rule R160: reset, from any state, the halted one included, makes every valid bit, the fault registers and CMDCNT
0 and leaves the memory (rule R161) and the instance as they were; the state is the one after power-on but for lanes
that nothing has written. -/
def Obligations.ResetMoveClears : Prop :=
  ∀ (s : State) (rest : List HostMove), s.host = .reset :: rest →
    ∃ t, step s = .next t ∧ (∀ r, t.valid r = false) ∧ t.fault = false ∧ t.fcode = 0 ∧ t.faddr = 0 ∧ t.fcmd = 0 ∧
      t.cmdcnt = 0 ∧ t.mem = s.mem ∧ t.cfg = s.cfg ∧ t.host = rest ∧
      SameButUnwritten { State.powerOn s.cfg with mem := s.mem, host := rest, draws := t.draws } t

/-- What power-on leaves on every instance (rules R22, R27, R30, R33, R160): no valid register, no fault, count 0. -/
def Obligations.PowerOnValues : Prop :=
  ∀ c : Config, (∀ r, (State.powerOn c).valid r = false) ∧
    statusRead (State.powerOn c) 0x00 = cfgWord c ∧ statusRead (State.powerOn c) 0x04 = 0 ∧
    statusRead (State.powerOn c) 0x08 = 0 ∧ statusRead (State.powerOn c) 0x0C = 0 ∧
    statusRead (State.powerOn c) 0x10 = 0 ∧ statusRead (State.powerOn c) 0x14 = 0 ∧
    statusRead (State.powerOn c) 0x18 = 0

/-- A byte the host writes between commands (rule R50) reads back, every other byte and all other state keep their
values; at an address the memory does not have (rule R45) the model gives no byte and stops on a write (log entry
13). -/
def Obligations.HostWriteStoresByte : Prop :=
  ∀ (s : State) (addr : Word) (x : Byte) (rest : List HostMove), s.host = .writeByte addr x :: rest →
    (addr.toNat < s.cfg.memBytes → ∃ t, step s = .next t ∧ t.hostReadByte addr = .ok x ∧ t.mem.read addr.toNat = x ∧
      (∀ b, b ≠ addr.toNat → t.mem.read b = s.mem.read b) ∧ t.regs = s.regs ∧ SameFaultRegs s t ∧
      t.cmdcnt = s.cmdcnt ∧ t.cfg = s.cfg ∧ t.draws = s.draws ∧ t.host = rest) ∧
    (s.cfg.memBytes ≤ addr.toNat →
      step s = .fault (.hostAddressInvalid addr) ∧ s.hostReadByte addr = .error (.hostAddressInvalid addr))

/-! ### The status port -/

/-- Rule R28: the seven offsets of the status port, 0 at every other offset, and a write through the port has no
effect (the move is taken from the host's list and nothing else changes). -/
def Obligations.StatusPortMap : Prop :=
  ∀ s : State,
    (statusRead s 0x00 = cfgWord s.cfg ∧ statusRead s 0x04 = statusWord s ∧ statusRead s 0x08 = s.cmdcnt ∧
      statusRead s 0x0C = vvalidWord s ∧ statusRead s 0x10 = s.faddr ∧
      statusRead s 0x18 ++ statusRead s 0x14 = s.fcmd) ∧
    (∀ off, off ∉ [0x00, 0x04, 0x08, 0x0C, 0x10, 0x14, 0x18] → statusRead s off = 0) ∧
    ∀ off v rest, s.host = .statusWrite off v :: rest → step s = .next (s.popHost rest)

/-- Rule R29: the fields of CFG. -/
def Obligations.CfgRegisterFields : Prop :=
  ∀ c : Config,
    ((cfgWord c).extractLsb' 0 2).toNat = (match c.etype with | .i32 => 0 | .i64 => 1 | .f32 => 2 | .f64 => 3) ∧
    (cfgWord c).getLsbD 2 = c.wide ∧ ((cfgWord c).extractLsb' 3 5).toNat = c.w ∧
    ((cfgWord c).extractLsb' 8 5).toNat = 16 ∧ (cfgWord c).extractLsb' 13 19 = 0

/-- Rules R30 and R32: the fields of STATUS and VVALID, and their value after power-on. -/
def Obligations.StatusAndVvalidFields : Prop :=
  (∀ c : Config, statusWord (State.powerOn c) = 0 ∧ vvalidWord (State.powerOn c) = 0) ∧
  ∀ s : State,
    (statusWord s).getLsbD 0 = s.fault ∧ (statusWord s).extractLsb' 1 3 = 0 ∧
    (statusWord s).extractLsb' 4 4 = s.fcode ∧ (statusWord s).extractLsb' 8 24 = 0 ∧
    (∀ r : RegNum, (vvalidWord s).getLsbD r.val = s.valid r) ∧ (vvalidWord s).extractLsb' 16 16 = 0

/-! ### Invariants and whole-machine rules -/

/-- The invariant holds at power-on of every legal instance, and at State.reset. -/
def Obligations.PowerOnMeetsInvariant : Prop :=
  (∀ c : Config, c.wf = true → (State.powerOn c).Inv) ∧ State.reset.Inv

/-- Every step keeps the invariant: the instance is legal, the memory canonical and inside the instance's bytes
(rule R45), every register holds W elements of EBITS bits (rules R8 and R20), and the fault registers read as rules
R30 and R33 say. -/
def Obligations.StepKeepsInvariant : Prop := ∀ s t : State, s.Inv → step s = .next t → t.Inv

/-- Rule R5: no step changes the parameters of the instance. -/
def Obligations.InstanceNeverChanges : Prop := ∀ s t : State, step s = .next t → t.cfg = s.cfg

/-- Rule R22: nothing but reset clears a valid bit. -/
def Obligations.OnlyResetClearsValidBits : Prop :=
  ∀ s t : State, step s = .next t → (∀ rest, s.host ≠ .reset :: rest) →
    ∀ r, s.valid r = true → t.valid r = true

/-- Rule R27: every accepted command gets a next state; one that completes adds 1 to CMDCNT (modulo 2^32), one that
faults leaves CMDCNT alone, and its word is in FCMD. -/
def Obligations.AcceptedCommandCountsOrFaults : Prop :=
  ∀ (s : State) (w : CmdWord) (rest : List HostMove), s.host = .command w :: rest → s.fault = false →
    ∃ t, step s = .next t ∧ t.host = rest ∧
      ((t.fault = false ∧ t.cmdcnt.toNat = (s.cmdcnt.toNat + 1) % 2 ^ 32) ∨
        (t.fault = true ∧ t.cmdcnt = s.cmdcnt ∧ t.fcmd = w))

/-- Rule R135: a command word that faults changes the four fault registers and nothing else: FAULT is 1, FCODE the
code, FADDR the word's ADDR field for the codes 3 and 4 and 0 for the others, FCMD the word. -/
def Obligations.FaultEntryIsPrecise : Prop :=
  ∀ (w : CmdWord) (s t : State), s.fault = false → runWord w s = .next t → t.fault = true →
    1 ≤ t.fcode.toNat ∧ t.fcode.toNat ≤ 4 ∧
      FaultTaken t.fcode (if 3 ≤ t.fcode.toNat then fieldAddr w else 0) w s t

/-- Rule R136: the first check that fails, in the order decode, registers, alignment, bounds, is the fault a word
takes; a word that passes them all takes none and is counted (rules R27 and R92). -/
def Obligations.FirstFailingCheckIsTheFault : Prop :=
  ∀ (w : CmdWord) (s : State), s.fault = false →
    ∃ t, runWord w s = .next t ∧ (IllegalWord s.cfg w → FaultTaken 1 0 w s t) ∧
      ∀ i, decode s.cfg w = .ok i →
        ((∃ r ∈ sources s.cfg i, s.valid r = false) → FaultTaken 2 0 w s t) ∧
        ((∀ r ∈ sources s.cfg i, s.valid r = true) →
          (∀ addr n, accessed s.cfg i = some (addr, n) →
            (addr.toNat % s.cfg.vbytes ≠ 0 → FaultTaken 3 addr w s t) ∧
            (addr.toNat % s.cfg.vbytes = 0 → s.cfg.memBytes < addr.toNat + n → FaultTaken 4 addr w s t)) ∧
          ((∀ addr n, accessed s.cfg i = some (addr, n) → AddrOk s.cfg addr n) →
            t.fault = false ∧ t.cmdcnt = s.cmdcnt + 1))

/-- Rules R110 and R168: whether an instruction faults, and with what, does not depend on the lanes or the memory. -/
def Obligations.FaultsIndependentOfData : Prop :=
  ∀ (i : Instr) (s t s' t' : State), t.cfg = s.cfg → (∀ r, t.valid r = s.valid r) → SameFaultRegs s t →
    t.cmdcnt = s.cmdcnt → exec i s = .next s' → exec i t = .next t' →
      SameFaultRegs s' t' ∧ t'.cmdcnt = s'.cmdcnt ∧ ∀ r, t'.valid r = s'.valid r

/-- Rules R22 and R160: the lanes of a register whose valid bit is 0 can be observed by no command and through no
status register. Two states that differ in such lanes only read alike and step alike. -/
def Obligations.UnwrittenLanesUnobservable : Prop :=
  ∀ s t : State, SameButUnwritten s t →
    (∀ off, statusRead t off = statusRead s off) ∧ OutcomesAgree (step s) (step t)

/-- Rule R170: a run of a list of words that ends well has advanced CMDCNT by the length of the list, modulo 2^32. -/
def Obligations.RunEndingWellCountsItsWords : Prop :=
  ∀ (ws : List CmdWord) (s t : State), EndsWell ws s t →
    t.cmdcnt.toNat = (s.cmdcnt.toNat + ws.length) % 2 ^ 32

/-! ### The order on elements -/

/-- Rule R80: in the integer instances the key is the two's-complement value of the EBITS-bit pattern. -/
def Obligations.IntegerKeyIsSigned : Prop :=
  ∀ (c : Config) (v : Elem), IsElem c v →
    (c.etype = .i32 → key c v = (v.setWidth 32).toInt ∧
      -(2 : Int) ^ 31 ≤ key c v ∧ key c v ≤ (2 : Int) ^ 31 - 1) ∧
    (c.etype = .i64 → key c v = v.toInt ∧ -(2 : Int) ^ 63 ≤ key c v ∧ key c v ≤ (2 : Int) ^ 63 - 1)

/-- Rule R81: in the float instances the key is the magnitude when the sign bit is 0, and minus the magnitude minus
1 when it is 1. -/
def Obligations.FloatKeyIsSignMagnitude : Prop :=
  ∀ (c : Config) (v : Elem), IsElem c v →
    (c.etype = .f32 → key c v =
      if v.getLsbD 31 then -((v.extractLsb' 0 31).toNat : Int) - 1 else ((v.extractLsb' 0 31).toNat : Int)) ∧
    (c.etype = .f64 → key c v =
      if v.getLsbD 63 then -((v.extractLsb' 0 63).toNat : Int) - 1 else ((v.extractLsb' 0 63).toNat : Int))

/-- Rule R82: le is antisymmetric in the strong sense: elements that are le each other are the same bits. -/
def Obligations.OrderIsAntisymmetric : Prop :=
  ∀ (c : Config) (a b : Elem), IsElem c a → IsElem c b → elemLe c a b → elemLe c b a → a = b

/-- Rule R83: min and max return the two operands, in the order of their keys, each with its bits unchanged. -/
def Obligations.CompareExchangeRearranges : Prop :=
  ∀ (c : Config) (a b : Elem),
    (elemLe c a b → minT c a b = a ∧ maxT c a b = b ∧ cmpx c a b = (a, b)) ∧
      (¬ elemLe c a b → minT c a b = b ∧ maxT c a b = a ∧ cmpx c a b = (b, a)) ∧
      elemLe c (minT c a b) (maxT c a b)

/-! ### Memory -/

/-- Rule R40: MemRead is little-endian, M[a] + 256*M[a+1] + ... + 256^(n-1)*M[a+n-1]. -/
def Obligations.MemReadIsLittleEndian : Prop :=
  ∀ (m : Memory) (a n : Nat),
    memRead m a n = (Finset.range n).sum fun k => 256 ^ k * (m.read (a + k)).toNat

/-- Rule R41: MemWrite sets byte k of the value at `a + k` and changes no other byte. -/
def Obligations.MemWriteIsLittleEndian : Prop :=
  ∀ (m : Memory) (a n v : Nat), v < 256 ^ n →
    (∀ k, k < n → ((memWrite m a n v).read (a + k)).toNat = v / 256 ^ k % 256) ∧
      ∀ b, b < a ∨ a + n ≤ b → (memWrite m a n v).read b = m.read b

/-- The canonical form is canonical: memories in that form in which the same bytes have been written with the same
values are equal (of the model's own form of memory, log entry 5). -/
def Obligations.CanonicalMemoriesAgree : Prop :=
  ∀ m m' : Memory, m.wf = true → m'.wf = true → (∀ a, m.written a = m'.written a) → m = m'

/-- Rule R93 (e): STOREREG then LOADREG at the same address reproduces the register. -/
def Obligations.StoreThenLoadReproduces : Prop :=
  ∀ (s : State) (vs vd : RegNum) (addr : Word), s.Inv → s.valid vs = true → AddrOk s.cfg addr s.cfg.vbytes →
    ∃ t u, exec (.storeReg vs addr) s = .next t ∧ exec (.loadReg vd addr) t = .next u ∧ u.lanes vd = s.lanes vs

/-- Rule R93 (e): LOADREG then STOREREG at the same address leaves every byte of memory as it was, those that
nothing has written included. -/
def Obligations.LoadThenStoreKeepsMemory : Prop :=
  ∀ (s : State) (vd : RegNum) (addr : Word), AddrOk s.cfg addr s.cfg.vbytes →
    ∃ t u, exec (.loadReg vd addr) s = .next t ∧ exec (.storeReg vd addr) t = .next u ∧ SameMemory s u

/-! ### What each command does -/

/-- Rule R85: LOADREG from an aligned address inside memory completes; lane i is the element at addr + i*EBYTES. -/
def Obligations.LoadRegLoadsRow : Prop :=
  ∀ (s : State) (vd : RegNum) (addr : Word), AddrOk s.cfg addr s.cfg.vbytes →
    ∃ t, exec (.loadReg vd addr) s = .next t ∧ t.valid vd = true ∧ (t.reg vd).lanes.length = s.cfg.w ∧
      (∀ i, i < s.cfg.w →
        (t.lane vd i).toNat = memRead s.mem (addr.toNat + i * s.cfg.ebytes) s.cfg.ebytes) ∧
      SameRegsExcept [vd] s t ∧ SameMemory s t ∧ CountedOnly s t

/-- Rule R86: STOREREG of a written register to an aligned address inside memory completes; byte k of lane i goes to
addr + i*EBYTES + k, and exactly those VBYTES bytes change. -/
def Obligations.StoreRegStoresRow : Prop :=
  ∀ (s : State) (vs : RegNum) (addr : Word), s.valid vs = true → AddrOk s.cfg addr s.cfg.vbytes →
    ∃ t, exec (.storeReg vs addr) s = .next t ∧
      (∀ i k, i < s.cfg.w → k < s.cfg.ebytes →
        (t.mem.read (addr.toNat + i * s.cfg.ebytes + k)).toNat = (s.lane vs i).toNat / 256 ^ k % 256) ∧
      SameMemoryOutside addr.toNat s.cfg.vbytes s t ∧ SameRegsExcept [] s t ∧ CountedOnly s t

/-- Rules R87 and R93 (b): MINMAX puts the lanewise minimum in va and the maximum in vb, so that afterwards every
lane of va is le the same lane of vb. -/
def Obligations.MinMaxComparesLanes : Prop :=
  ∀ (s : State) (va vb : RegNum), va ≠ vb → s.valid va = true → s.valid vb = true →
    ∃ t, exec (.minMax va vb) s = .next t ∧ t.valid va = true ∧ t.valid vb = true ∧
      (∀ i, i < s.cfg.w → t.lane va i = minT s.cfg (s.lane va i) (s.lane vb i) ∧
        t.lane vb i = maxT s.cfg (s.lane va i) (s.lane vb i) ∧ elemLe s.cfg (t.lane va i) (t.lane vb i)) ∧
      SameRegsExcept [va, vb] s t ∧ SameMemory s t ∧ CountedOnly s t

/-- Rules R88 and R89: MASKEDMINMAX pairs lane i of va with lane i xor (2^pat - 1) of vb; the minimum goes to the
one, the maximum to the other. -/
def Obligations.MaskedMinMaxComparesPairs : Prop :=
  ∀ (s : State) (va vb : RegNum) (pat : PatNum), va ≠ vb → pat.val ≤ s.cfg.logw → s.valid va = true →
    s.valid vb = true →
    ∃ t, exec (.maskedMinMax va vb pat) s = .next t ∧ t.valid va = true ∧ t.valid vb = true ∧
      (∀ i, i < s.cfg.w →
        t.lane va i = minT s.cfg (s.lane va i) (s.lane vb (i ^^^ (2 ^ pat.val - 1))) ∧
        t.lane vb (i ^^^ (2 ^ pat.val - 1)) = maxT s.cfg (s.lane va i) (s.lane vb (i ^^^ (2 ^ pat.val - 1)))) ∧
      SameRegsExcept [va, vb] s t ∧ SameMemory s t ∧ CountedOnly s t

/-- Rule R88: pattern p is the set of the pairs (i, i xor (2^p - 1)), every PI_p is its own inverse on the lanes and
names every lane, PI_LOGW is the permutation of REVERSE, and the lists are those the rule gives. -/
def Obligations.PatternTable : Prop :=
  (∀ (c : Config) (p : Nat), patternPairs c.w p = (List.range c.w).map fun i => (i, i ^^^ (2 ^ p - 1))) ∧
  (∀ c : Config, ∀ i, i < c.w → patternLane c.logw i = c.w - 1 - i) ∧
  (∀ c : Config, ∀ p, p ≤ c.logw → ∀ i, i < c.w →
    patternLane p i < c.w ∧ patternLane p (patternLane p i) = i) ∧
  (List.range 16).map (patternLane 0) = [0, 1, 2, 3, 4, 5, 6, 7, 8, 9, 10, 11, 12, 13, 14, 15] ∧
  (List.range 16).map (patternLane 1) = [1, 0, 3, 2, 5, 4, 7, 6, 9, 8, 11, 10, 13, 12, 15, 14] ∧
  (List.range 16).map (patternLane 2) = [3, 2, 1, 0, 7, 6, 5, 4, 11, 10, 9, 8, 15, 14, 13, 12] ∧
  (List.range 16).map (patternLane 3) = [7, 6, 5, 4, 3, 2, 1, 0, 15, 14, 13, 12, 11, 10, 9, 8] ∧
  (List.range 16).map (patternLane 4) = [15, 14, 13, 12, 11, 10, 9, 8, 7, 6, 5, 4, 3, 2, 1, 0]

/-- Rule R90: REVERSE gives lane W-1-i of the source as lane i of the destination; the two may be one register. -/
def Obligations.ReverseReversesLanes : Prop :=
  ∀ (s : State) (vd vs : RegNum), s.valid vs = true →
    ∃ t, exec (.reverse vd vs) s = .next t ∧ t.valid vd = true ∧
      (∀ i, i < s.cfg.w → t.lane vd i = s.lane vs (s.cfg.w - 1 - i)) ∧
      SameRegsExcept [vd] s t ∧ SameMemory s t ∧ CountedOnly s t

/-- Rule R91: TRANSPOSE, with V[0] to V[W-1] written, exchanges rows and columns of those registers. -/
def Obligations.TransposeExchangesRowsAndColumns : Prop :=
  ∀ s : State, (∀ r : RegNum, r.val < s.cfg.w → s.valid r = true) →
    ∃ t, exec .transpose s = .next t ∧
      (∀ p q : RegNum, p.val < s.cfg.w → q.val < s.cfg.w → t.valid p = true ∧ t.lane p q.val = s.lane q p.val) ∧
      SameRegsExcept (blockRegs s.cfg) s t ∧ SameMemory s t ∧ CountedOnly s t

/-- Rules R101 to R103: INTRASORT leaves in vd the ascending arrangement of the lanes of vs, for every register. -/
def Obligations.IntraSortSorts : Prop :=
  ∀ (s : State) (vd vs : RegNum), s.valid vs = true →
    ∃ t, exec (.intraSort vd vs) s = .next t ∧ t.valid vd = true ∧
      IsSortedOf s.cfg (t.lanes vd) (s.lanes vs) ∧
      SameRegsExcept [vd] s t ∧ SameMemory s t ∧ CountedOnly s t

/-- Rules R104 to R108 for any operands, ascending or not: INTRASORT2, MASKEDINTRASORT2 and BITONICMERGE leave in va
and then vb what NET_MERGE makes of va followed by vb reversed, a rearrangement of the 2W lanes. -/
def Obligations.MergeCommandsApplyNetwork : Prop :=
  ∀ (s : State) (va vb : RegNum) (i : Instr),
    i ∈ [Instr.intraSort2 va vb, Instr.maskedIntraSort2 va vb, Instr.bitonicMerge va vb] →
    va ≠ vb → s.valid va = true → s.valid vb = true →
    ∃ t, exec i s = .next t ∧ t.valid va = true ∧ t.valid vb = true ∧
      t.lanes va ++ t.lanes vb =
        applyNetwork (cmpx s.cfg) (mergeNetwork s.cfg.logw) (s.lanes va ++ (s.lanes vb).reverse) ∧
      (t.lanes va ++ t.lanes vb).Perm (s.lanes va ++ s.lanes vb) ∧
      SameRegsExcept [va, vb] s t ∧ SameMemory s t ∧ CountedOnly s t

/-- Rule R105 (a): when both operands are ascending, each of the three merge commands leaves all 2W elements in
ascending order, read as va and then vb. -/
def Obligations.MergeCommandsMergeSorted : Prop :=
  ∀ (s : State) (va vb : RegNum) (i : Instr),
    i ∈ [Instr.intraSort2 va vb, Instr.maskedIntraSort2 va vb, Instr.bitonicMerge va vb] →
    va ≠ vb → s.valid va = true → s.valid vb = true →
    Ascending s.cfg (s.lanes va) → Ascending s.cfg (s.lanes vb) →
    ∃ t, exec i s = .next t ∧ IsSortedOf s.cfg (t.lanes va ++ t.lanes vb) (s.lanes va ++ s.lanes vb) ∧
      SameRegsExcept [va, vb] s t ∧ SameMemory s t ∧ CountedOnly s t

/-- Rule R123, the net effect of SORTBLOCK: row r of the block afterwards is the ascending arrangement of column r of
the block before, and V[r] holds that row; only the block's bytes and V[0] to V[W-1] change. -/
def Obligations.SortBlockSortsColumns : Prop :=
  ∀ (s : State) (addr : Word), AddrOk s.cfg addr s.cfg.blockBytes →
    ∃ t, exec (.sortBlock addr) s = .next t ∧
      (∀ r : RegNum, r.val < s.cfg.w →
        IsSortedOf s.cfg (loadRow s.cfg t.mem (addr.toNat + r.val * s.cfg.vbytes))
          ((List.range s.cfg.w).map fun j => readElem s.cfg s.mem (addr.toNat + (j * s.cfg.w + r.val) * s.cfg.ebytes)) ∧
        t.valid r = true ∧ t.lanes r = loadRow s.cfg t.mem (addr.toNat + r.val * s.cfg.vbytes)) ∧
      SameMemoryOutside addr.toNat s.cfg.blockBytes s t ∧ SameRegsExcept (blockRegs s.cfg) s t ∧ CountedOnly s t

/-- Rules R101 and R104: the stages of NET_SORT for W = 4, 8 and 16 and of NET_MERGE for W = 4 and 8 as the rules
write them out, and how many stages and comparators NET_MERGE has for W = 16. -/
def Obligations.NetworksAsListed : Prop :=
  sortNetwork 2 = [[(0, 1), (3, 2)], [(0, 2), (1, 3)], [(0, 1), (2, 3)]] ∧
  sortNetwork 3 =
    [[(0, 1), (3, 2), (4, 5), (7, 6)], [(0, 2), (1, 3), (6, 4), (7, 5)], [(0, 1), (2, 3), (5, 4), (7, 6)],
      [(0, 4), (1, 5), (2, 6), (3, 7)], [(0, 2), (1, 3), (4, 6), (5, 7)], [(0, 1), (2, 3), (4, 5), (6, 7)]] ∧
  sortNetwork 4 =
    [[(0, 1), (3, 2), (4, 5), (7, 6), (8, 9), (11, 10), (12, 13), (15, 14)],
      [(0, 2), (1, 3), (6, 4), (7, 5), (8, 10), (9, 11), (14, 12), (15, 13)],
      [(0, 1), (2, 3), (5, 4), (7, 6), (8, 9), (10, 11), (13, 12), (15, 14)],
      [(0, 4), (1, 5), (2, 6), (3, 7), (12, 8), (13, 9), (14, 10), (15, 11)],
      [(0, 2), (1, 3), (4, 6), (5, 7), (10, 8), (11, 9), (14, 12), (15, 13)],
      [(0, 1), (2, 3), (4, 5), (6, 7), (9, 8), (11, 10), (13, 12), (15, 14)],
      [(0, 8), (1, 9), (2, 10), (3, 11), (4, 12), (5, 13), (6, 14), (7, 15)],
      [(0, 4), (1, 5), (2, 6), (3, 7), (8, 12), (9, 13), (10, 14), (11, 15)],
      [(0, 2), (1, 3), (4, 6), (5, 7), (8, 10), (9, 11), (12, 14), (13, 15)],
      [(0, 1), (2, 3), (4, 5), (6, 7), (8, 9), (10, 11), (12, 13), (14, 15)]] ∧
  mergeNetwork 2 =
    [[(0, 4), (1, 5), (2, 6), (3, 7)], [(0, 2), (1, 3), (4, 6), (5, 7)], [(0, 1), (2, 3), (4, 5), (6, 7)]] ∧
  mergeNetwork 3 =
    [[(0, 8), (1, 9), (2, 10), (3, 11), (4, 12), (5, 13), (6, 14), (7, 15)],
      [(0, 4), (1, 5), (2, 6), (3, 7), (8, 12), (9, 13), (10, 14), (11, 15)],
      [(0, 2), (1, 3), (4, 6), (5, 7), (8, 10), (9, 11), (12, 14), (13, 15)],
      [(0, 1), (2, 3), (4, 5), (6, 7), (8, 9), (10, 11), (12, 13), (14, 15)]] ∧
  (mergeNetwork 4).map List.length = List.replicate 5 16

/-! ### Where a command faults -/

/-- Rules R133, R134 and R43: LOADREG, STOREREG (of a written register, rule R136) and SORTBLOCK raise MISALIGNED
when ADDR is no multiple of VBYTES, and BOUNDS when the aligned range leaves the memory; ADDR and the word are
recorded, nothing else changes. -/
def Obligations.AddressFaults : Prop :=
  ∀ (s : State) (r : RegNum) (addr : Word),
    (addr.toNat % s.cfg.vbytes ≠ 0 →
      (∃ t, exec (.loadReg r addr) s = .next t ∧ FaultTaken 3 addr (encode (.loadReg r addr)) s t) ∧
      (s.valid r = true →
        ∃ t, exec (.storeReg r addr) s = .next t ∧ FaultTaken 3 addr (encode (.storeReg r addr)) s t) ∧
      (∃ t, exec (.sortBlock addr) s = .next t ∧ FaultTaken 3 addr (encode (.sortBlock addr)) s t)) ∧
    (addr.toNat % s.cfg.vbytes = 0 →
      (s.cfg.memBytes < addr.toNat + s.cfg.vbytes →
        (∃ t, exec (.loadReg r addr) s = .next t ∧ FaultTaken 4 addr (encode (.loadReg r addr)) s t) ∧
        (s.valid r = true →
          ∃ t, exec (.storeReg r addr) s = .next t ∧ FaultTaken 4 addr (encode (.storeReg r addr)) s t)) ∧
      (s.cfg.memBytes < addr.toNat + s.cfg.blockBytes →
        ∃ t, exec (.sortBlock addr) s = .next t ∧ FaultTaken 4 addr (encode (.sortBlock addr)) s t))

/-- Rules R132 and R136: a command whose operands are legal and that reads a register nothing has written raises
UNWRITTEN, whatever its address; LOADREG and SORTBLOCK never do. -/
def Obligations.UnwrittenSourceFaults : Prop :=
  (∀ (s : State) (i : Instr) (vs vd va vb : RegNum) (addr : Word) (pat : PatNum), i.wf s.cfg = true →
    (i ∈ [Instr.storeReg vs addr, Instr.reverse vd vs, Instr.intraSort vd vs] ∧ s.valid vs = false) ∨
      (i ∈ [Instr.minMax va vb, Instr.maskedMinMax va vb pat, Instr.intraSort2 va vb, Instr.maskedIntraSort2 va vb,
        Instr.bitonicMerge va vb] ∧ (s.valid va = false ∨ s.valid vb = false)) ∨
      (i = Instr.transpose ∧ ∃ r : RegNum, r.val < s.cfg.w ∧ s.valid r = false) →
    ∃ t, exec i s = .next t ∧ FaultTaken 2 0 (encode i) s t) ∧
  ∀ (s t : State) (i : Instr) (vd : RegNum) (addr : Word),
    i ∈ [Instr.loadReg vd addr, Instr.sortBlock addr] → exec i s = .next t →
      ∀ a, ¬ FaultTaken 2 a (encode i) s t

/-- Rules R63 and R64, on an instruction as a term: naming one register twice in a command that updates two, or a
pattern the instance lacks, raises ILLEGAL. -/
def Obligations.IllFormedOperandsFault : Prop :=
  ∀ (s : State) (i : Instr), i.wf s.cfg = false →
    ∃ t, exec i s = .next t ∧ FaultTaken 1 0 (encode i) s t

/-! ### Frames -/

/-- The frame of the commands that store nothing (rules R24, R46 and R92): LOADREG, REVERSE and INTRASORT write vd,
the five two-register commands write va and vb, TRANSPOSE writes V[0] to V[W-1]; every other register, all of
memory, the instance, and (but for a fault entry) the fault registers keep their values. -/
def Obligations.RegisterCommandsFrame : Prop :=
  ∀ s t : State,
    (∀ vd addr, exec (.loadReg vd addr) s = .next t → RegisterFrame (.loadReg vd addr) [vd] s t) ∧
    (∀ vd vs, exec (.reverse vd vs) s = .next t → RegisterFrame (.reverse vd vs) [vd] s t) ∧
    (∀ vd vs, exec (.intraSort vd vs) s = .next t → RegisterFrame (.intraSort vd vs) [vd] s t) ∧
    (∀ va vb, exec (.minMax va vb) s = .next t → RegisterFrame (.minMax va vb) [va, vb] s t) ∧
    (∀ va vb pat, exec (.maskedMinMax va vb pat) s = .next t →
      RegisterFrame (.maskedMinMax va vb pat) [va, vb] s t) ∧
    (∀ va vb, exec (.intraSort2 va vb) s = .next t → RegisterFrame (.intraSort2 va vb) [va, vb] s t) ∧
    (∀ va vb, exec (.maskedIntraSort2 va vb) s = .next t →
      RegisterFrame (.maskedIntraSort2 va vb) [va, vb] s t) ∧
    (∀ va vb, exec (.bitonicMerge va vb) s = .next t → RegisterFrame (.bitonicMerge va vb) [va, vb] s t) ∧
    (exec .transpose s = .next t → RegisterFrame .transpose (blockRegs s.cfg) s t)

/-- The frame of STOREREG (rule R86): no register changes, and every byte outside addr .. addr+VBYTES-1 reads as
before. -/
def Obligations.StoreRegFrame : Prop :=
  ∀ (s t : State) (vs : RegNum) (addr : Word), exec (.storeReg vs addr) s = .next t →
    StoringFrame (.storeReg vs addr) [] addr.toNat s.cfg.vbytes s t

/-- The frame of SORTBLOCK (rule R122): V[W] to V[15] and every byte outside the block keep their values. -/
def Obligations.SortBlockFrame : Prop :=
  ∀ (s t : State) (addr : Word), exec (.sortBlock addr) s = .next t →
    StoringFrame (.sortBlock addr) (blockRegs s.cfg) addr.toNat s.cfg.blockBytes s t

/-! ### Identities between commands -/

/-- Rule R93 (d): REVERSE applied twice gives the register back. -/
def Obligations.ReverseTwiceIsIdentity : Prop :=
  ∀ (s : State) (r : RegNum), s.valid r = true →
    ∃ t u, exec (.reverse r r) s = .next t ∧ exec (.reverse r r) t = .next u ∧ u.lanes r = s.lanes r

/-- Rule R93 (c): TRANSPOSE applied twice gives the matrix back. -/
def Obligations.TransposeTwiceIsIdentity : Prop :=
  ∀ s : State, (∀ r : RegNum, r.val < s.cfg.w → s.valid r = true) →
    ∃ t u, exec .transpose s = .next t ∧ exec .transpose t = .next u ∧ ∀ r, u.lanes r = s.lanes r

/-- Rule R87: applying MINMAX twice is the same as once. -/
def Obligations.MinMaxTwiceIsOnce : Prop :=
  ∀ (s : State) (va vb : RegNum), va ≠ vb → s.valid va = true → s.valid vb = true →
    ∃ t u, exec (.minMax va vb) s = .next t ∧ exec (.minMax va vb) t = .next u ∧ ∀ r, u.lanes r = t.lanes r

/-- Rule R93 (a): MINMAX and MASKEDMINMAX rearrange the 2W lanes of va and vb, REVERSE leaves in vd a rearrangement of
the old vs, and TRANSPOSE rearranges the W*W lanes of V[0] to V[W-1]. -/
def Obligations.ComparatorsPermuteLanes : Prop :=
  (∀ (s : State) (va vb : RegNum) (pat : PatNum) (i : Instr),
    i ∈ [Instr.minMax va vb, Instr.maskedMinMax va vb pat] → i.wf s.cfg = true → s.valid va = true →
    s.valid vb = true →
    ∃ t, exec i s = .next t ∧ (t.lanes va ++ t.lanes vb).Perm (s.lanes va ++ s.lanes vb)) ∧
  (∀ (s : State) (vd vs : RegNum), s.valid vs = true →
    ∃ t, exec (.reverse vd vs) s = .next t ∧ (t.lanes vd).Perm (s.lanes vs)) ∧
  ∀ s : State, (∀ r : RegNum, r.val < s.cfg.w → s.valid r = true) →
    ∃ t, exec .transpose s = .next t ∧
      ((blockRegs s.cfg).flatMap t.lanes).Perm ((blockRegs s.cfg).flatMap s.lanes)

/-- Rule R94: pattern 0 is MINMAX; pattern LOGW has the effect of REVERSE vb, MINMAX, REVERSE vb, which counts three
commands instead of one; pattern p is MINMAX between two permutations of vb by PI_p. -/
def Obligations.MaskedPatternIdentities : Prop :=
  ∀ (s : State) (va vb : RegNum), va ≠ vb → s.valid va = true → s.valid vb = true →
    exec (.maskedMinMax va vb 0) s = exec (.minMax va vb) s ∧
    (∃ t u, exec (.maskedMinMax va vb (Fin.ofNat 16 s.cfg.logw)) s = .next t ∧
      execSeq [.reverse vb vb, .minMax va vb, .reverse vb vb] s = .next u ∧
      t.lanes va = u.lanes va ∧ t.lanes vb = u.lanes vb ∧ t.cmdcnt = s.cmdcnt + 1 ∧ u.cmdcnt = s.cmdcnt + 3) ∧
    ∀ pat : PatNum, pat.val ≤ s.cfg.logw →
      ∃ t u, exec (.maskedMinMax va vb pat) s = .next t ∧
        exec (.minMax va vb)
          (s.writeReg vb ((List.range s.cfg.w).map fun i => s.lane vb (patternLane pat.val i))) = .next u ∧
        t.lanes va = u.lanes va ∧ ∀ i, i < s.cfg.w → t.lane vb i = u.lane vb (patternLane pat.val i)

/-- Rule R109 (a): on operands that raise no fault the three merge commands have the same effect. -/
def Obligations.MergeCommandsAgree : Prop :=
  ∀ (s : State) (va vb : RegNum), va ≠ vb → s.valid va = true → s.valid vb = true →
    exec (.maskedIntraSort2 va vb) s = exec (.intraSort2 va vb) s ∧
      exec (.bitonicMerge va vb) s = exec (.intraSort2 va vb) s

/-- Rule R109 (d): sorting each of two registers and then merging them sorts all 2W elements, for every input. -/
def Obligations.SortBothThenMergeSorts : Prop :=
  ∀ (s : State) (va vb : RegNum), va ≠ vb → s.valid va = true → s.valid vb = true →
    ∃ t, execSeq [.intraSort va va, .intraSort vb vb, .bitonicMerge va vb] s = .next t ∧
      IsSortedOf s.cfg (t.lanes va ++ t.lanes vb) (s.lanes va ++ s.lanes vb)

/-- Rule R124: SORTBLOCK has the effect on memory and registers of a sequence of LOADREG, MINMAX, TRANSPOSE and
STOREREG commands, which counts 2W + (W/2)*LOGW*(LOGW+1)/2 + 1 commands where SORTBLOCK counts one. -/
def Obligations.SortBlockIsItsProgram : Prop :=
  ∀ (s : State) (addr : Word), s.cfg.wf = true → AddrOk s.cfg addr s.cfg.blockBytes →
    ∃ t u, exec (.sortBlock addr) s = .next t ∧ execSeq (sortBlockProgram s.cfg addr) s = .next u ∧
      u.mem = t.mem ∧ u.regs = t.regs ∧ SameFaultRegs t u ∧
      (sortBlockProgram s.cfg addr).length =
        2 * s.cfg.w + s.cfg.w / 2 * (s.cfg.logw * (s.cfg.logw + 1) / 2) + 1 ∧
      u.cmdcnt = s.cmdcnt + BitVec.ofNat 32 (sortBlockProgram s.cfg addr).length
end

