-- ==== Sys2Proof/Laws/Decode.lean ====
section
/-! SUPPORT. The fields of a word built from fields, and a word rebuilt from its fields. -/

namespace Sys2Proof

/-- The bits of a word put together as rule R60 lays them out. -/
theorem getLsbD_layout (op : BitVec 8) (x y z : BitVec 4) (addr : Word) (i : Nat) :
    (op ++ x ++ y ++ z ++ (0 : BitVec 12) ++ addr : BitVec 64).getLsbD i =
      if i < 32 then addr.getLsbD i
      else if i < 44 then false
      else if i < 48 then z.getLsbD (i - 44)
      else if i < 52 then y.getLsbD (i - 48)
      else if i < 56 then x.getLsbD (i - 52)
      else op.getLsbD (i - 56) := by
  simp only [BitVec.getLsbD_append]
  grind

variable (op : BitVec 8) (ra rb : RegNum) (pat : PatNum) (addr : Word)

theorem getLsbD_wordOf (i : Nat) :
    (wordOf op ra rb pat addr).getLsbD i =
      if i < 32 then addr.getLsbD i
      else if i < 44 then false
      else if i < 48 then (BitVec.ofFin pat : BitVec 4).getLsbD (i - 44)
      else if i < 52 then (BitVec.ofFin rb : BitVec 4).getLsbD (i - 48)
      else if i < 56 then (BitVec.ofFin ra : BitVec 4).getLsbD (i - 52)
      else op.getLsbD (i - 56) := getLsbD_layout op _ _ _ addr i

@[simp] theorem fieldOp_wordOf : fieldOp (wordOf op ra rb pat addr) = op := by
  apply BitVec.eq_of_getLsbD_eq
  intro i hi
  rw [fieldOp, BitVec.getLsbD_extractLsb', getLsbD_wordOf]
  grind

theorem bitsRA_wordOf : (wordOf op ra rb pat addr).extractLsb' 52 4 = BitVec.ofFin ra := by
  apply BitVec.eq_of_getLsbD_eq
  intro i hi
  rw [BitVec.getLsbD_extractLsb', getLsbD_wordOf]
  grind

theorem bitsRB_wordOf : (wordOf op ra rb pat addr).extractLsb' 48 4 = BitVec.ofFin rb := by
  apply BitVec.eq_of_getLsbD_eq
  intro i hi
  rw [BitVec.getLsbD_extractLsb', getLsbD_wordOf]
  grind

theorem bitsPat_wordOf : (wordOf op ra rb pat addr).extractLsb' 44 4 = BitVec.ofFin pat := by
  apply BitVec.eq_of_getLsbD_eq
  intro i hi
  rw [BitVec.getLsbD_extractLsb', getLsbD_wordOf]
  grind

@[simp] theorem fieldRA_wordOf : fieldRA (wordOf op ra rb pat addr) = ra := by
  rw [fieldRA, bitsRA_wordOf]

@[simp] theorem fieldRB_wordOf : fieldRB (wordOf op ra rb pat addr) = rb := by
  rw [fieldRB, bitsRB_wordOf]

@[simp] theorem fieldPat_wordOf : fieldPat (wordOf op ra rb pat addr) = pat := by
  rw [fieldPat, bitsPat_wordOf]

@[simp] theorem fieldZero_wordOf : fieldZero (wordOf op ra rb pat addr) = 0 := by
  apply BitVec.eq_of_getLsbD_eq
  intro i hi
  rw [fieldZero, BitVec.getLsbD_extractLsb', getLsbD_wordOf]
  grind

@[simp] theorem fieldAddr_wordOf : fieldAddr (wordOf op ra rb pat addr) = addr := by
  apply BitVec.eq_of_getLsbD_eq
  intro i hi
  rw [fieldAddr, BitVec.getLsbD_extractLsb', getLsbD_wordOf]
  grind

/-- A word whose ZERO field is zero is the word built from its other five fields (rule R60). -/
theorem wordOf_fields (w : CmdWord) (h : fieldZero w = 0) :
    wordOf (fieldOp w) (fieldRA w) (fieldRB w) (fieldPat w) (fieldAddr w) = w := by
  have hz : ∀ i, 32 ≤ i → i < 44 → w.getLsbD i = false := by
    intro i h1 h2
    have := congrArg (fun x => x.getLsbD (i - 32)) h
    simp only [fieldZero, BitVec.getLsbD_extractLsb'] at this
    simpa [show i - 32 < 12 by omega, show 32 + (i - 32) = i by omega] using this
  have hr (x : BitVec 4) : (BitVec.ofFin x.toFin : BitVec 4) = x := rfl
  apply BitVec.eq_of_getLsbD_eq
  intro i hi
  simp only [getLsbD_wordOf, fieldOp, fieldRA, fieldRB, fieldPat, fieldAddr, hr, BitVec.getLsbD_extractLsb']
  grind

end Sys2Proof
end

