-- ==== Sys2Proof/Laws/Params.lean ====
section
/-! SUPPORT. The derived constants of the eight instances (rule R6) and how they hang together. -/

namespace Sys2Proof

/-- W is 2^LOGW (rule R6). -/
theorem Config.w_eq_two_pow (c : Config) : c.w = 2 ^ c.logw := by
  rcases c with ⟨_ | _, _ | _ | _ | _, n⟩ <;> simp [Config.w, Config.vlen, Config.ebits, Config.logw]

/-- A row is W elements (rule R6): VBYTES = W*EBYTES. -/
theorem Config.vbytes_eq (c : Config) : c.vbytes = c.w * c.ebytes := by
  rcases c with ⟨_ | _, _ | _ | _ | _, n⟩ <;> simp [Config.vbytes, Config.w, Config.vlen, Config.ebytes, Config.ebits]

/-- EBITS = 8*EBYTES (rule R6). -/
theorem Config.ebits_eq (c : Config) : c.ebits = 8 * c.ebytes := by
  rcases c with ⟨_ | _, _ | _ | _ | _, n⟩ <;> simp [Config.ebits, Config.ebytes]

theorem Config.ebits_le (c : Config) : c.ebits ≤ 64 := by
  rcases c with ⟨_ | _, _ | _ | _ | _, n⟩ <;> simp [Config.ebits]

theorem Config.ebits_pos (c : Config) : 0 < c.ebits := by
  rcases c with ⟨_ | _, _ | _ | _ | _, n⟩ <;> simp [Config.ebits]

theorem Config.w_le (c : Config) : c.w ≤ 16 := by
  rcases c with ⟨_ | _, _ | _ | _ | _, n⟩ <;> simp [Config.w, Config.vlen, Config.ebits]

theorem Config.w_pos (c : Config) : 0 < c.w := by
  rcases c with ⟨_ | _, _ | _ | _ | _, n⟩ <;> simp [Config.w, Config.vlen, Config.ebits]

theorem Config.vbytes_pos (c : Config) : 0 < c.vbytes := by
  rcases c with ⟨_ | _, _ | _ | _ | _, n⟩ <;> simp [Config.vbytes, Config.vlen]

/-- An element of EBYTES bytes is a pattern of EBITS bits. -/
theorem Config.pow_ebytes (c : Config) : 256 ^ c.ebytes = 2 ^ c.ebits := by
  rcases c with ⟨_ | _, _ | _ | _ | _, n⟩ <;> simp [Config.ebytes, Config.ebits]

end Sys2Proof
end

