-- ==== Sys2Proof/Laws/Network.lean ====
section
/-! SUPPORT. Comparator networks keep the length and the multiset of a sequence; the compare-exchange of elements. -/

namespace Sys2Proof.Machine

/-! ### The compare-exchange -/

theorem minT_eq_or (c : Config) (a b : Elem) : minT c a b = a ∨ minT c a b = b := by
  unfold minT; split <;> simp

theorem maxT_eq_or (c : Config) (a b : Elem) : maxT c a b = a ∨ maxT c a b = b := by
  unfold maxT; split <;> simp

theorem cmpx_of_le {c : Config} {a b : Elem} (h : elemLe c a b) : cmpx c a b = (a, b) := by
  simp [cmpx, minT, maxT, h]

theorem cmpx_of_not_le {c : Config} {a b : Elem} (h : ¬ elemLe c a b) : cmpx c a b = (b, a) := by
  simp [cmpx, minT, maxT, h]

/-! ### Length -/

@[simp] theorem length_compareAt {α : Type} (cx : α → α → α × α) (s : List α) (p : Comparator) :
    (compareAt cx s p).length = s.length := by
  unfold compareAt; split <;> simp

@[simp] theorem length_applyStage {α : Type} (cx : α → α → α × α) (st : List Comparator) (s : List α) :
    (applyStage cx s st).length = s.length := by
  unfold applyStage
  induction st generalizing s with
  | nil => rfl
  | cons p st ih => rw [List.foldl_cons, ih, length_compareAt]

@[simp] theorem length_applyNetwork {α : Type} (cx : α → α → α × α) (net : Network) (s : List α) :
    (applyNetwork cx net s).length = s.length := by
  unfold applyNetwork
  induction net generalizing s with
  | nil => rfl
  | cons st net ih => rw [List.foldl_cons, ih, length_applyStage]

/-- A property of sequences that one comparator keeps is kept by a network. -/
theorem applyNetwork_keeps {α : Type} (P : List α → Prop) (cx : α → α → α × α)
    (h : ∀ s p, P s → P (compareAt cx s p)) (net : Network) (s : List α) (hs : P s) : P (applyNetwork cx net s) := by
  unfold applyNetwork
  induction net generalizing s with
  | nil => exact hs
  | cons st net ih =>
    refine ih _ ?_
    unfold applyStage
    induction st generalizing s with
    | nil => exact hs
    | cons p st ih' => exact ih' _ (h _ _ hs)

@[simp] theorem length_sortLanes (c : Config) (s : List Elem) : (sortLanes c s).length = s.length := by
  simp [sortLanes]

theorem length_mergeLanes_fst (c : Config) (a b : List Elem) (ha : a.length = c.w) (hb : b.length = c.w) :
    (mergeLanes c a b).1.length = c.w := by
  simp [mergeLanes, ha, hb]

theorem length_mergeLanes_snd (c : Config) (a b : List Elem) (ha : a.length = c.w) (hb : b.length = c.w) :
    (mergeLanes c a b).2.length = c.w := by
  simp [mergeLanes, ha, hb]

/-- The two halves of a merge, read one after the other, are the network's output. -/
theorem mergeLanes_append (c : Config) (a b : List Elem) :
    (mergeLanes c a b).1 ++ (mergeLanes c a b).2 =
      applyNetwork (cmpx c) (mergeNetwork c.logw) (a ++ b.reverse) := by
  simp [mergeLanes]

@[simp] theorem length_transposeRows (w : Nat) (rows : List (List Elem)) : (transposeRows w rows).length = w := by
  simp [transposeRows]

/-- Entry (i, j) of a transpose is entry (j, i) (rule R91). -/
theorem getD_transposeRows (w : Nat) (rows : List (List Elem)) {i j : Nat} (hi : i < w) (hj : j < w) :
    ((transposeRows w rows).getD i []).getD j 0 = (rows.getD j []).getD i 0 := by
  simp [transposeRows, hi, hj]

@[simp] theorem length_columnSort (c : Config) (rows : List (List Elem)) :
    (columnSort c rows).length = rows.length := by
  simp [columnSort]

end Sys2Proof.Machine
end

