-- ==== Sys2Proof/Laws/Memory.lean ====
section
/-! SUPPORT. Memory: a read after a write, the canonical form and the bound are kept by every operation, and what a
row or block store leaves alone. -/

namespace Sys2Proof.Machine

/-! ### One byte -/

theorem Memory.written_filter (m : Memory) (a b : Nat) :
    Memory.written (m.filter fun e => e.1 != a) b = if b = a then none else m.written b := by
  induction m with
  | nil => simp [Memory.written]
  | cons e rest ih =>
    obtain ⟨k, y⟩ := e
    by_cases hk : k = a
    · subst hk
      by_cases hb : b = k
      · subst hb; simpa using ih
      · simp [ih, hb, Memory.written, Ne.symm hb]
    · by_cases hb : k = b
      · subst hb; simp [Memory.written, hk]
      · simp [ih, Memory.written, hk, hb]

theorem Memory.written_insert (m : Memory) (a b : Nat) (x : Byte) (h : ∀ e ∈ m, e.1 ≠ a) :
    (m.insert a x).written b = if b = a then some x else m.written b := by
  induction m with
  | nil => simp [Memory.insert, Memory.written, eq_comm]
  | cons e rest ih =>
    obtain ⟨k, y⟩ := e
    have hk : k ≠ a := h (k, y) (by simp)
    have ih' := ih fun e he => h e (by simp [he])
    unfold Memory.insert
    split
    · simp [Memory.written, eq_comm]
    · by_cases hb : k = b
      · subst hb; simp [Memory.written, hk]
      · simp [Memory.written, hb, ih']

theorem Memory.filter_lacks (m : Memory) (a : Nat) : ∀ e ∈ m.filter (fun e => e.1 != a), e.1 ≠ a := by
  simp

/-- What a write leaves written: the value at that address, and at every other what was written there before. -/
theorem Memory.written_write (m : Memory) (a b : Nat) (x : Byte) :
    (m.write a x).written b = if b = a then some x else m.written b := by
  rw [Memory.write, Memory.written_insert _ _ _ _ (Memory.filter_lacks m a), Memory.written_filter]
  split <;> rfl

/-- A read after a write: the value written at that address, the old value at every other, in every memory. -/
theorem Memory.read_write (m : Memory) (a b : Nat) (x : Byte) :
    (m.write a x).read b = if b = a then x else m.read b := by
  rw [Memory.read, Memory.written_write]
  split <;> rfl

/-- A byte that has been written reads as the value last written, whatever the free values are. -/
theorem Memory.read_of_written (m : Memory) (a : Nat) (x : Byte) (h : m.written a = some x) : m.read a = x := by
  simp [Memory.read, h]

@[simp] theorem Memory.read_write_same (m : Memory) (a : Nat) (x : Byte) : (m.write a x).read a = x := by
  simp [Memory.read_write]

theorem Memory.read_write_other (m : Memory) (a b : Nat) (x : Byte) (h : b ≠ a) :
    (m.write a x).read b = m.read b := by simp [Memory.read_write, h]

/-! ### The canonical form -/

theorem Memory.risesFrom_mono (m : Memory) (l k : Nat) (h : l ≤ k) (hm : m.risesFrom k = true) :
    m.risesFrom l = true := by
  cases m with
  | nil => rfl
  | cons e rest =>
    simp only [Memory.risesFrom, Bool.and_eq_true, decide_eq_true_eq] at hm ⊢
    exact ⟨by omega, hm.2⟩

theorem Memory.risesFrom_filter (m : Memory) (l : Nat) (p : Host.Cell → Bool) (hm : m.risesFrom l = true) :
    Memory.risesFrom l (m.filter p) = true := by
  induction m generalizing l with
  | nil => rfl
  | cons e rest ih =>
    simp only [Memory.risesFrom, Bool.and_eq_true, decide_eq_true_eq] at hm
    rw [List.filter_cons]
    split
    · simp [Memory.risesFrom, hm.1, ih _ hm.2]
    · exact Memory.risesFrom_mono _ _ _ (by omega) (ih _ hm.2)

theorem Memory.risesFrom_insert (m : Memory) (l a : Nat) (x : Byte) (hl : l ≤ a) (h : ∀ e ∈ m, e.1 ≠ a)
    (hm : m.risesFrom l = true) : (m.insert a x).risesFrom l = true := by
  induction m generalizing l with
  | nil => simp [Memory.insert, Memory.risesFrom, hl]
  | cons e rest ih =>
    obtain ⟨k, y⟩ := e
    have hk : k ≠ a := h (k, y) (by simp)
    simp only [Memory.risesFrom, Bool.and_eq_true, decide_eq_true_eq] at hm
    unfold Memory.insert
    split
    · simp [Memory.risesFrom, hl, hm.2]
      omega
    · simp [Memory.risesFrom, hm.1, ih (k + 1) (by omega) (fun e he => h e (by simp [he])) hm.2]

theorem Memory.all_insert (m : Memory) (a : Nat) (x : Byte) (p : Host.Cell → Bool) (hx : p (a, x) = true)
    (hm : m.all p = true) : (m.insert a x).all p = true := by
  induction m with
  | nil => simp [Memory.insert, hx]
  | cons e rest ih =>
    obtain ⟨k, y⟩ := e
    simp only [List.all_cons, Bool.and_eq_true] at hm
    unfold Memory.insert
    split
    · simp [hx, hm.1, hm.2]
    · simp [hm.1, ih hm.2]

theorem Memory.all_filter (m : Memory) (p q : Host.Cell → Bool) (hm : m.all p = true) :
    (m.filter q).all p = true := by
  simp only [List.all_eq_true, List.mem_filter] at hm ⊢
  exact fun e he => hm e he.1

/-- Writing a byte keeps the canonical form. -/
theorem Memory.wf_write (m : Memory) (a : Nat) (x : Byte) (hm : m.wf = true) : (m.write a x).wf = true :=
  Memory.risesFrom_insert _ _ _ _ (by omega) (Memory.filter_lacks m a) (Memory.risesFrom_filter m 0 _ hm)

/-- Writing a byte below the bound keeps every listed address below it. -/
theorem Memory.below_write (m : Memory) (a n : Nat) (x : Byte) (ha : a < n) (hm : m.below n = true) :
    (m.write a x).below n = true :=
  Memory.all_insert _ _ _ _ (by simp [ha]) (Memory.all_filter m _ _ hm)

/-! ### Elements -/

theorem memWrite_wf (m : Memory) (a n v : Nat) (hm : m.wf = true) : (memWrite m a n v).wf = true := by
  induction n generalizing m a v with
  | zero => exact hm
  | succ n ih => exact ih _ _ _ (Memory.wf_write _ _ _ hm)

theorem memWrite_below (m : Memory) (a n v bound : Nat) (h : a + n ≤ bound) (hm : m.below bound = true) :
    (memWrite m a n v).below bound = true := by
  induction n generalizing m a v with
  | zero => exact hm
  | succ n ih => exact ih _ _ _ (by omega) (Memory.below_write _ _ _ _ (by omega) hm)

theorem memWrite_read_outside (m : Memory) (a n v b : Nat) (h : b < a ∨ a + n ≤ b) :
    (memWrite m a n v).read b = m.read b := by
  induction n generalizing m a v with
  | zero => rfl
  | succ n ih =>
    rw [memWrite, ih _ _ _ (by omega), Memory.read_write_other _ _ _ _ (by omega)]

/-- MemRead of n bytes is a number of 8n bits. -/
theorem memRead_lt (m : Memory) (a n : Nat) : memRead m a n < 256 ^ n := by
  induction n generalizing a with
  | zero => simp [memRead]
  | succ n ih =>
    have h1 : (m.read a).toNat < 256 := (m.read a).isLt
    have h2 := ih (a + 1)
    rw [memRead, Nat.pow_succ]
    omega

/-- MemRead depends only on the bytes it reads. -/
theorem memRead_congr (m m' : Memory) (a n : Nat) (h : ∀ k, k < n → m'.read (a + k) = m.read (a + k)) :
    memRead m' a n = memRead m a n := by
  induction n generalizing a with
  | zero => rfl
  | succ n ih =>
    have h0 := h 0 (by omega)
    rw [Nat.add_zero] at h0
    rw [memRead, memRead, h0, ih (a + 1) fun k hk => by
      have := h (k + 1) (by omega)
      rwa [show a + (k + 1) = a + 1 + k by omega] at this]

/-! ### A fold of stores -/

/-- A property of memories that each store of a fold keeps is kept by the fold. -/
theorem foldl_keeps {α β : Type} (P : β → Prop) (f : β → α → β) (l : List α) (m : β) (hm : P m)
    (hf : ∀ x ∈ l, ∀ b, P b → P (f b x)) : P (l.foldl f m) := by
  induction l generalizing m with
  | nil => exact hm
  | cons x l ih => exact ih _ (hf x (by simp) m hm) fun y hy => hf y (by simp [hy])

end Sys2Proof.Machine
end

