-- ==== Sys2Proof/Laws/State.lean ====
section
/-! SUPPORT. One lemma per field of State per named update, each true by unfolding, so that no proof unfolds a record
update; and what reading a register gives after each update. -/

namespace Sys2Proof.Machine

variable (s : State)

/-! ### writeReg -/

@[simp] theorem State.writeReg_cfg (r : RegNum) (l : List Elem) : (s.writeReg r l).cfg = s.cfg := rfl
@[simp] theorem State.writeReg_regs (r : RegNum) (l : List Elem) : (s.writeReg r l).regs = s.regs.set r.val { lanes := l, valid := true } := rfl
@[simp] theorem State.writeReg_fault (r : RegNum) (l : List Elem) : (s.writeReg r l).fault = s.fault := rfl
@[simp] theorem State.writeReg_fcode (r : RegNum) (l : List Elem) : (s.writeReg r l).fcode = s.fcode := rfl
@[simp] theorem State.writeReg_faddr (r : RegNum) (l : List Elem) : (s.writeReg r l).faddr = s.faddr := rfl
@[simp] theorem State.writeReg_fcmd (r : RegNum) (l : List Elem) : (s.writeReg r l).fcmd = s.fcmd := rfl
@[simp] theorem State.writeReg_cmdcnt (r : RegNum) (l : List Elem) : (s.writeReg r l).cmdcnt = s.cmdcnt := rfl
@[simp] theorem State.writeReg_mem (r : RegNum) (l : List Elem) : (s.writeReg r l).mem = s.mem := rfl
@[simp] theorem State.writeReg_host (r : RegNum) (l : List Elem) : (s.writeReg r l).host = s.host := rfl
@[simp] theorem State.writeReg_draws (r : RegNum) (l : List Elem) : (s.writeReg r l).draws = s.draws := rfl

/-! ### setMem -/

@[simp] theorem State.setMem_cfg (m : Memory) : (s.setMem m).cfg = s.cfg := rfl
@[simp] theorem State.setMem_regs (m : Memory) : (s.setMem m).regs = s.regs := rfl
@[simp] theorem State.setMem_fault (m : Memory) : (s.setMem m).fault = s.fault := rfl
@[simp] theorem State.setMem_fcode (m : Memory) : (s.setMem m).fcode = s.fcode := rfl
@[simp] theorem State.setMem_faddr (m : Memory) : (s.setMem m).faddr = s.faddr := rfl
@[simp] theorem State.setMem_fcmd (m : Memory) : (s.setMem m).fcmd = s.fcmd := rfl
@[simp] theorem State.setMem_cmdcnt (m : Memory) : (s.setMem m).cmdcnt = s.cmdcnt := rfl
@[simp] theorem State.setMem_mem (m : Memory) : (s.setMem m).mem = m := rfl
@[simp] theorem State.setMem_host (m : Memory) : (s.setMem m).host = s.host := rfl
@[simp] theorem State.setMem_draws (m : Memory) : (s.setMem m).draws = s.draws := rfl

/-! ### enterFault -/

@[simp] theorem State.enterFault_cfg (f : FaultCause) (w : CmdWord) : (s.enterFault f w).cfg = s.cfg := rfl
@[simp] theorem State.enterFault_regs (f : FaultCause) (w : CmdWord) : (s.enterFault f w).regs = s.regs := rfl
@[simp] theorem State.enterFault_fault (f : FaultCause) (w : CmdWord) : (s.enterFault f w).fault = true := rfl
@[simp] theorem State.enterFault_fcode (f : FaultCause) (w : CmdWord) : (s.enterFault f w).fcode = f.code := rfl
@[simp] theorem State.enterFault_faddr (f : FaultCause) (w : CmdWord) : (s.enterFault f w).faddr = f.address := rfl
@[simp] theorem State.enterFault_fcmd (f : FaultCause) (w : CmdWord) : (s.enterFault f w).fcmd = w := rfl
@[simp] theorem State.enterFault_cmdcnt (f : FaultCause) (w : CmdWord) : (s.enterFault f w).cmdcnt = s.cmdcnt := rfl
@[simp] theorem State.enterFault_mem (f : FaultCause) (w : CmdWord) : (s.enterFault f w).mem = s.mem := rfl
@[simp] theorem State.enterFault_host (f : FaultCause) (w : CmdWord) : (s.enterFault f w).host = s.host := rfl
@[simp] theorem State.enterFault_draws (f : FaultCause) (w : CmdWord) : (s.enterFault f w).draws = s.draws := rfl

/-! ### count -/

@[simp] theorem State.count_cfg : s.count.cfg = s.cfg := rfl
@[simp] theorem State.count_regs : s.count.regs = s.regs := rfl
@[simp] theorem State.count_fault : s.count.fault = s.fault := rfl
@[simp] theorem State.count_fcode : s.count.fcode = s.fcode := rfl
@[simp] theorem State.count_faddr : s.count.faddr = s.faddr := rfl
@[simp] theorem State.count_fcmd : s.count.fcmd = s.fcmd := rfl
@[simp] theorem State.count_cmdcnt : s.count.cmdcnt = s.cmdcnt + 1 := rfl
@[simp] theorem State.count_mem : s.count.mem = s.mem := rfl
@[simp] theorem State.count_host : s.count.host = s.host := rfl
@[simp] theorem State.count_draws : s.count.draws = s.draws := rfl

/-! ### popHost -/

@[simp] theorem State.popHost_cfg (rest : List HostMove) : (s.popHost rest).cfg = s.cfg := rfl
@[simp] theorem State.popHost_regs (rest : List HostMove) : (s.popHost rest).regs = s.regs := rfl
@[simp] theorem State.popHost_fault (rest : List HostMove) : (s.popHost rest).fault = s.fault := rfl
@[simp] theorem State.popHost_fcode (rest : List HostMove) : (s.popHost rest).fcode = s.fcode := rfl
@[simp] theorem State.popHost_faddr (rest : List HostMove) : (s.popHost rest).faddr = s.faddr := rfl
@[simp] theorem State.popHost_fcmd (rest : List HostMove) : (s.popHost rest).fcmd = s.fcmd := rfl
@[simp] theorem State.popHost_cmdcnt (rest : List HostMove) : (s.popHost rest).cmdcnt = s.cmdcnt := rfl
@[simp] theorem State.popHost_mem (rest : List HostMove) : (s.popHost rest).mem = s.mem := rfl
@[simp] theorem State.popHost_host (rest : List HostMove) : (s.popHost rest).host = rest := rfl
@[simp] theorem State.popHost_draws (rest : List HostMove) : (s.popHost rest).draws = s.draws := rfl

/-! ### writeBlockRegs -/

@[simp] theorem State.writeBlockRegs_cfg (rows : List (List Elem)) : (s.writeBlockRegs rows).cfg = s.cfg := rfl
@[simp] theorem State.writeBlockRegs_fault (rows : List (List Elem)) : (s.writeBlockRegs rows).fault = s.fault := rfl
@[simp] theorem State.writeBlockRegs_fcode (rows : List (List Elem)) : (s.writeBlockRegs rows).fcode = s.fcode := rfl
@[simp] theorem State.writeBlockRegs_faddr (rows : List (List Elem)) : (s.writeBlockRegs rows).faddr = s.faddr := rfl
@[simp] theorem State.writeBlockRegs_fcmd (rows : List (List Elem)) : (s.writeBlockRegs rows).fcmd = s.fcmd := rfl
@[simp] theorem State.writeBlockRegs_cmdcnt (rows : List (List Elem)) : (s.writeBlockRegs rows).cmdcnt = s.cmdcnt := rfl
@[simp] theorem State.writeBlockRegs_mem (rows : List (List Elem)) : (s.writeBlockRegs rows).mem = s.mem := rfl
@[simp] theorem State.writeBlockRegs_host (rows : List (List Elem)) : (s.writeBlockRegs rows).host = s.host := rfl
@[simp] theorem State.writeBlockRegs_draws (rows : List (List Elem)) : (s.writeBlockRegs rows).draws = s.draws := rfl

/-! ### applyReset -/

@[simp] theorem State.applyReset_cfg : s.applyReset.cfg = s.cfg := rfl
@[simp] theorem State.applyReset_fault : s.applyReset.fault = false := rfl
@[simp] theorem State.applyReset_fcode : s.applyReset.fcode = 0 := rfl
@[simp] theorem State.applyReset_faddr : s.applyReset.faddr = 0 := rfl
@[simp] theorem State.applyReset_fcmd : s.applyReset.fcmd = 0 := rfl
@[simp] theorem State.applyReset_cmdcnt : s.applyReset.cmdcnt = 0 := rfl
@[simp] theorem State.applyReset_mem : s.applyReset.mem = s.mem := rfl
@[simp] theorem State.applyReset_host : s.applyReset.host = s.host := rfl
@[simp] theorem State.applyReset_draws : s.applyReset.draws = s.draws + 1 := rfl

/-! ### writePair -/

@[simp] theorem State.writePair_cfg (va vb : RegNum) (p : List Elem × List Elem) : (s.writePair va vb p).cfg = s.cfg := rfl
@[simp] theorem State.writePair_fault (va vb : RegNum) (p : List Elem × List Elem) : (s.writePair va vb p).fault = s.fault := rfl
@[simp] theorem State.writePair_fcode (va vb : RegNum) (p : List Elem × List Elem) : (s.writePair va vb p).fcode = s.fcode := rfl
@[simp] theorem State.writePair_faddr (va vb : RegNum) (p : List Elem × List Elem) : (s.writePair va vb p).faddr = s.faddr := rfl
@[simp] theorem State.writePair_fcmd (va vb : RegNum) (p : List Elem × List Elem) : (s.writePair va vb p).fcmd = s.fcmd := rfl
@[simp] theorem State.writePair_cmdcnt (va vb : RegNum) (p : List Elem × List Elem) : (s.writePair va vb p).cmdcnt = s.cmdcnt := rfl
@[simp] theorem State.writePair_mem (va vb : RegNum) (p : List Elem × List Elem) : (s.writePair va vb p).mem = s.mem := rfl
@[simp] theorem State.writePair_host (va vb : RegNum) (p : List Elem × List Elem) : (s.writePair va vb p).host = s.host := rfl
@[simp] theorem State.writePair_draws (va vb : RegNum) (p : List Elem × List Elem) : (s.writePair va vb p).draws = s.draws := rfl

/-! ### Reading a register after an update -/

theorem State.reg_writeReg (r q : RegNum) (l : List Elem) :
    (s.writeReg r l).reg q = if q = r then { lanes := l, valid := true } else s.reg q := by
  rcases eq_or_ne q r with rfl | h
  · simp [State.reg]
  · have : r.val ≠ q.val := fun e => h (Fin.ext e.symm)
    simp [State.reg, this, h]

@[simp] theorem State.reg_writeReg_same (r : RegNum) (l : List Elem) :
    (s.writeReg r l).reg r = { lanes := l, valid := true } := by simp [State.reg_writeReg]

theorem State.reg_writeReg_other (r q : RegNum) (l : List Elem) (h : q ≠ r) :
    (s.writeReg r l).reg q = s.reg q := by simp [State.reg_writeReg, h]

theorem State.reg_writePair (va vb q : RegNum) (p : List Elem × List Elem) :
    (s.writePair va vb p).reg q =
      if q = vb then { lanes := p.2, valid := true } else if q = va then { lanes := p.1, valid := true } else s.reg q := by
  simp [State.writePair, State.reg_writeReg]

theorem State.reg_writeBlockRegs (rows : List (List Elem)) (q : RegNum) :
    (s.writeBlockRegs rows).reg q =
      if q.val < s.cfg.w then { lanes := rows.getD q.val [], valid := true } else s.reg q := by
  simp [State.writeBlockRegs, State.reg]

@[simp] theorem State.reg_setMem (m : Memory) (q : RegNum) : (s.setMem m).reg q = s.reg q := rfl
@[simp] theorem State.reg_enterFault (f : FaultCause) (w : CmdWord) (q : RegNum) :
    (s.enterFault f w).reg q = s.reg q := rfl
@[simp] theorem State.reg_count (q : RegNum) : s.count.reg q = s.reg q := rfl
@[simp] theorem State.reg_popHost (rest : List HostMove) (q : RegNum) : (s.popHost rest).reg q = s.reg q := rfl

/-- After reset no register can be read (rule R160). -/
@[simp] theorem State.valid_applyReset (q : RegNum) : s.applyReset.valid q = false := by
  simp [State.applyReset, State.valid, State.reg]

/-! ### Lanes and valid bits follow the register -/

theorem State.valid_eq (q : RegNum) : s.valid q = (s.reg q).valid := rfl

theorem State.lane_eq (q : RegNum) (i : Nat) : s.lane q i = (s.reg q).lanes.getD i 0 := rfl

/-- Reading a register gives exactly W lanes, in every state (rule R23). -/
@[simp] theorem State.length_lanes (q : RegNum) : (s.lanes q).length = s.cfg.w := by simp [State.lanes]

theorem State.getD_lanes (q : RegNum) (i : Nat) (h : i < s.cfg.w) : (s.lanes q).getD i 0 = s.lane q i := by
  simp [State.lanes, h]

/-- A register that holds W lanes reads as the list it holds. -/
theorem State.lanes_of_length (q : RegNum) (h : (s.reg q).lanes.length = s.cfg.w) : s.lanes q = (s.reg q).lanes := by
  apply List.ext_getElem (by simp [h])
  intro i h1 h2
  simp [State.lanes, State.lane, h2]

/-- Two states agree on the lanes of a register that is the same in both, on the same instance. -/
theorem State.lanes_congr {s t : State} (q : RegNum) (hc : t.cfg = s.cfg) (hr : t.reg q = s.reg q) :
    t.lanes q = s.lanes q := by
  simp [State.lanes, State.lane, hc, hr]

end Sys2Proof.Machine
end

