-- ==== Sys2Proof/Laws/Ops.lean ====
section
/-! SUPPORT. What each shared operation can do: the checks, the end of a command, row and block accesses. -/

namespace Sys2Proof.Machine

variable {s : State}

/-! ### Sequencing of checks -/

@[simp] theorem ok_bind {ε α β : Type} (x : α) (f : α → Except ε β) : (Except.ok x >>= f) = f x := rfl

@[simp] theorem error_bind {ε α β : Type} (e : ε) (f : α → Except ε β) :
    ((Except.error e : Except ε α) >>= f) = Except.error e := rfl

@[simp] theorem pure_ok {ε α : Type} (x : α) : (pure x : Except ε α) = Except.ok x := rfl

/-! ### The checks -/

theorem checkDistinct_ne {va vb : RegNum} (h : va ≠ vb) : checkDistinct va vb = .ok () := by
  simp [checkDistinct, h]

@[simp] theorem checkDistinct_same (va : RegNum) : checkDistinct va va = .error .illegal := by
  simp [checkDistinct]

theorem checkPattern_le {c : Config} {pat : PatNum} (h : pat.val ≤ c.logw) : checkPattern c pat = .ok () := by
  simp [checkPattern, h]

theorem checkPattern_gt {c : Config} {pat : PatNum} (h : c.logw < pat.val) :
    checkPattern c pat = .error .illegal := by
  simp [checkPattern, Nat.not_le.mpr h]

theorem readReg_valid {r : RegNum} (h : s.valid r = true) : readReg s r = .ok (s.lanes r) := by
  simp [readReg, h]

theorem readReg_invalid {r : RegNum} (h : s.valid r = false) : readReg s r = .error .unwritten := by
  simp [readReg, h]

theorem readPair_valid {va vb : RegNum} (ha : s.valid va = true) (hb : s.valid vb = true) :
    readPair s va vb = .ok (s.lanes va, s.lanes vb) := by
  simp [readPair, readReg_valid ha, readReg_valid hb]

theorem readPair_invalid {va vb : RegNum} (h : s.valid va = false ∨ s.valid vb = false) :
    readPair s va vb = .error .unwritten := by
  cases ha : s.valid va with
  | false => simp [readPair, readReg_invalid ha]
  | true =>
    have hb : s.valid vb = false := by simpa [ha] using h
    simp [readPair, readReg_valid ha, readReg_invalid hb]

/-- Whether V[0] to V[W-1] are all written, register by register. -/
theorem blockRegsValid_iff : blockRegsValid s = true ↔ ∀ r : RegNum, r.val < s.cfg.w → s.valid r = true := by
  have hw := s.cfg.w_le
  simp only [blockRegsValid, List.all_eq_true, List.mem_range]
  constructor
  · intro h r hr
    have := h r.val hr
    simpa using this
  · intro h r hr
    exact h _ (by simp [Nat.mod_eq_of_lt (show r < 16 by omega), hr])

theorem readBlockRegs_valid (h : blockRegsValid s = true) :
    readBlockRegs s = .ok ((List.range s.cfg.w).map fun r => s.lanes (Fin.ofNat 16 r)) := by
  simp [readBlockRegs, h]

theorem readBlockRegs_invalid (h : blockRegsValid s = false) : readBlockRegs s = .error .unwritten := by
  simp [readBlockRegs, h]

theorem checkAddr_ok {c : Config} {addr : Word} {n : Nat} (h : AddrOk c addr n) : checkAddr c addr n = .ok () := by
  simp [checkAddr, h.1, Nat.not_lt.mpr h.2]

theorem checkAddr_misaligned {c : Config} {addr : Word} {n : Nat} (h : addr.toNat % c.vbytes ≠ 0) :
    checkAddr c addr n = .error (.misaligned addr) := by
  simp [checkAddr, h]

theorem checkAddr_bounds {c : Config} {addr : Word} {n : Nat} (h : addr.toNat % c.vbytes = 0)
    (hb : c.memBytes < addr.toNat + n) : checkAddr c addr n = .error (.bounds addr) := by
  simp [checkAddr, h, hb]

/-! ### When checks pass -/

theorem bind_eq_ok {ε α β : Type} (x : Except ε α) (f : α → Except ε β) (u : β) :
    (x >>= f) = .ok u ↔ ∃ a, x = .ok a ∧ f a = .ok u := by
  cases x <;> simp

theorem ok_eq_ok {ε α : Type} (x y : α) : (Except.ok x : Except ε α) = .ok y ↔ y = x := by
  simp [eq_comm]

theorem checkDistinct_eq_ok (va vb : RegNum) (x : Unit) : checkDistinct va vb = .ok x ↔ va ≠ vb := by
  simp [checkDistinct]

theorem checkPattern_eq_ok (c : Config) (pat : PatNum) (x : Unit) :
    checkPattern c pat = .ok x ↔ pat.val ≤ c.logw := by
  simp [checkPattern]

theorem readReg_eq_ok (r : RegNum) (l : List Elem) : readReg s r = .ok l ↔ s.valid r = true ∧ l = s.lanes r := by
  by_cases h : s.valid r = true
  · simp only [readReg, h, if_true, ok_eq_ok, true_and]
  · simp [readReg, h]

theorem readPair_eq_ok (va vb : RegNum) (p : List Elem × List Elem) :
    readPair s va vb = .ok p ↔ s.valid va = true ∧ s.valid vb = true ∧ p = (s.lanes va, s.lanes vb) := by
  simp only [readPair, bind_eq_ok, readReg_eq_ok, pure_ok, ok_eq_ok]
  aesop

theorem readBlockRegs_eq_ok (rows : List (List Elem)) :
    readBlockRegs s = .ok rows ↔
      blockRegsValid s = true ∧ rows = (List.range s.cfg.w).map fun r => s.lanes (Fin.ofNat 16 r) := by
  by_cases h : blockRegsValid s = true
  · simp only [readBlockRegs, h, if_true, ok_eq_ok, true_and]
  · simp [readBlockRegs, h]

theorem checkAddr_eq_ok (c : Config) (addr : Word) (n : Nat) (x : Unit) :
    checkAddr c addr n = .ok x ↔ AddrOk c addr n := by
  unfold checkAddr AddrOk; split <;> [skip; split] <;> simp_all

/-! ### The end of a command -/

@[simp] theorem conclude_ok (i : Instr) (t : State) : conclude i s (.ok t) = .next t.count := rfl

@[simp] theorem conclude_error (i : Instr) (f : FaultCause) :
    conclude i s (.error f) = .next (s.enterFault f (encode i)) := rfl

/-- A command ends in the fault entry with the first cause found, or in its counted effect. -/
theorem conclude_next {i : Instr} {e : Except FaultCause State} {t : State} (h : conclude i s e = .next t) :
    (∃ f, e = .error f ∧ t = s.enterFault f (encode i)) ∨ ∃ u, e = .ok u ∧ t = u.count := by
  cases e with
  | error f => exact .inl ⟨f, rfl, (Host.Outcome.next.inj h).symm⟩
  | ok u => exact .inr ⟨u, rfl, (Host.Outcome.next.inj h).symm⟩

/-! ### Rows and blocks -/

@[simp] theorem length_loadRow (c : Config) (m : Memory) (a : Nat) : (loadRow c m a).length = c.w := by
  simp [loadRow]

@[simp] theorem length_loadBlock (c : Config) (m : Memory) (a : Nat) : (loadBlock c m a).length = c.w := by
  simp [loadBlock]

/-- What is read from memory is an element of EBITS bits. -/
theorem isElem_readElem (c : Config) (m : Memory) (a : Nat) : IsElem c (readElem c m a) := by
  have h := memRead_lt m a c.ebytes
  rw [c.pow_ebytes] at h
  have h64 : 2 ^ c.ebits ≤ 2 ^ 64 := Nat.pow_le_pow_right (by omega) c.ebits_le
  show (BitVec.ofNat 64 (memRead m a c.ebytes)).toNat < 2 ^ c.ebits
  rw [BitVec.toNat_ofNat, Nat.mod_eq_of_lt (Nat.lt_of_lt_of_le h h64)]
  exact h

/-- A row lies inside the bytes it starts: lane i of W ends at or before `a + VBYTES`. -/
theorem lane_end_le (c : Config) {i : Nat} (h : i < c.w) : i * c.ebytes + c.ebytes ≤ c.vbytes := by
  rw [c.vbytes_eq, ← Nat.succ_mul]
  exact Nat.mul_le_mul_right _ h

/-- A row of a block lies inside the block. -/
theorem row_end_le (c : Config) {r : Nat} (h : r < c.w) : r * c.vbytes + c.vbytes ≤ c.blockBytes := by
  rw [Config.blockBytes, ← Nat.succ_mul]
  exact Nat.mul_le_mul_right _ h

theorem storeRow_wf (c : Config) (m : Memory) (a : Nat) (l : List Elem) (hm : m.wf = true) :
    (storeRow c m a l).wf = true :=
  foldl_keeps (fun m : Memory => m.wf = true) _ _ _ hm fun _ _ _ hb => memWrite_wf _ _ _ _ hb

theorem storeBlock_wf (c : Config) (m : Memory) (a : Nat) (rows : List (List Elem)) (hm : m.wf = true) :
    (storeBlock c m a rows).wf = true :=
  foldl_keeps (fun m : Memory => m.wf = true) _ _ _ hm fun _ _ _ hb => storeRow_wf _ _ _ _ hb

theorem storeRow_below (c : Config) (m : Memory) (a bound : Nat) (l : List Elem) (h : a + c.vbytes ≤ bound)
    (hm : m.below bound = true) : (storeRow c m a l).below bound = true :=
  foldl_keeps (fun m : Memory => m.below bound = true) _ _ _ hm fun i hi _ hb => by
    have := lane_end_le c (List.mem_range.mp hi)
    exact memWrite_below _ _ _ _ _ (by omega) hb

theorem storeBlock_below (c : Config) (m : Memory) (a bound : Nat) (rows : List (List Elem))
    (h : a + c.blockBytes ≤ bound) (hm : m.below bound = true) : (storeBlock c m a rows).below bound = true :=
  foldl_keeps (fun m : Memory => m.below bound = true) _ _ _ hm fun r hr _ hb => by
    have := row_end_le c (List.mem_range.mp hr)
    exact storeRow_below _ _ _ _ _ (by omega) hb

/-- StoreRow changes no byte outside its row (rule R42). -/
theorem storeRow_read_outside (c : Config) (m : Memory) (a b : Nat) (l : List Elem)
    (h : b < a ∨ a + c.vbytes ≤ b) : (storeRow c m a l).read b = m.read b :=
  foldl_keeps (fun m' : Memory => m'.read b = m.read b) _ _ _ rfl fun i hi m' hb => by
    have := lane_end_le c (List.mem_range.mp hi)
    rw [memWrite_read_outside _ _ _ _ _ (by omega), hb]

/-- Storing a block changes no byte outside it (rule R122). -/
theorem storeBlock_read_outside (c : Config) (m : Memory) (a b : Nat) (rows : List (List Elem))
    (h : b < a ∨ a + c.blockBytes ≤ b) : (storeBlock c m a rows).read b = m.read b :=
  foldl_keeps (fun m' : Memory => m'.read b = m.read b) _ _ _ rfl fun r hr m' hb => by
    have := row_end_le c (List.mem_range.mp hr)
    rw [storeRow_read_outside _ _ _ _ _ (by omega), hb]

end Sys2Proof.Machine
end

