-- ==== Sys2Proof/Laws/Exec.lean ====
section
/-! SUPPORT. Everything `exec` can do, said once: the fault entry, or the counted effect of the instruction. -/

namespace Sys2Proof.Machine

/-- The effect of an instruction whose checks pass, before the count (rule R92, steps 3 to 6). -/
def Effect (i : Instr) (s u : State) : Prop :=
  match i with
  | .loadReg vd addr => AddrOk s.cfg addr s.cfg.vbytes ∧ u = s.writeReg vd (loadRow s.cfg s.mem addr.toNat)
  | .storeReg vs addr =>
    s.valid vs = true ∧ AddrOk s.cfg addr s.cfg.vbytes ∧
      u = s.setMem (storeRow s.cfg s.mem addr.toNat (s.lanes vs))
  | .minMax va vb =>
    va ≠ vb ∧ s.valid va = true ∧ s.valid vb = true ∧
      u = s.writePair va vb (minMaxLanes s.cfg (s.lanes va) (s.lanes vb))
  | .maskedMinMax va vb pat =>
    va ≠ vb ∧ pat.val ≤ s.cfg.logw ∧ s.valid va = true ∧ s.valid vb = true ∧
      u = s.writePair va vb (maskedLanes s.cfg (patternPairs s.cfg.w pat.val) (s.lanes va) (s.lanes vb))
  | .reverse vd vs => s.valid vs = true ∧ u = s.writeReg vd (s.lanes vs).reverse
  | .transpose =>
    blockRegsValid s = true ∧
      u = s.writeBlockRegs (transposeRows s.cfg.w ((List.range s.cfg.w).map fun r => s.lanes (Fin.ofNat 16 r)))
  | .intraSort vd vs => s.valid vs = true ∧ u = s.writeReg vd (sortLanes s.cfg (s.lanes vs))
  | .intraSort2 va vb =>
    va ≠ vb ∧ s.valid va = true ∧ s.valid vb = true ∧
      u = s.writePair va vb (mergeLanes s.cfg (s.lanes va) (s.lanes vb))
  | .maskedIntraSort2 va vb =>
    va ≠ vb ∧ s.valid va = true ∧ s.valid vb = true ∧
      u = s.writePair va vb (mergeLanes s.cfg (s.lanes va) (s.lanes vb))
  | .bitonicMerge va vb =>
    va ≠ vb ∧ s.valid va = true ∧ s.valid vb = true ∧
      u = s.writePair va vb (mergeLanes s.cfg (s.lanes va) (s.lanes vb))
  | .sortBlock addr =>
    AddrOk s.cfg addr s.cfg.blockBytes ∧
      ∃ rows, rows = sortedBlockRows s.cfg (loadBlock s.cfg s.mem addr.toNat) ∧
        u = (s.setMem (storeBlock s.cfg s.mem addr.toNat rows)).writeBlockRegs rows

/-- How the operation of an instruction ends: with a fault cause, or with its effect. -/
theorem exec_spec (i : Instr) (s : State) :
    ∃ e, exec i s = conclude i s e ∧ ∀ u, e = .ok u ↔ Effect i s u := by
  cases i <;>
    exact ⟨_, rfl, fun u => by
      simp only [Effect, bind_eq_ok, checkAddr_eq_ok, checkDistinct_eq_ok, checkPattern_eq_ok, readPair_eq_ok,
        readReg_eq_ok, readBlockRegs_eq_ok, pure_ok, ok_eq_ok]
      aesop⟩

/-- What a next state of `exec` can be: the fault entry, or the counted effect. -/
theorem exec_next {i : Instr} {s t : State} (h : exec i s = .next t) :
    (∃ f, t = s.enterFault f (encode i)) ∨ ∃ u, Effect i s u ∧ t = u.count := by
  obtain ⟨e, he, hu⟩ := exec_spec i s
  rcases conclude_next (he ▸ h) with ⟨f, -, rfl⟩ | ⟨u, hok, rfl⟩
  · exact .inl ⟨f, rfl⟩
  · exact .inr ⟨u, (hu u).mp hok, rfl⟩

/-- An instruction whose checks pass completes with its effect, counted. -/
theorem exec_of_effect {i : Instr} {s u : State} (h : Effect i s u) : exec i s = .next u.count := by
  obtain ⟨e, he, hu⟩ := exec_spec i s
  rw [he, (hu u).mpr h, conclude_ok]

end Sys2Proof.Machine
end

