-- ==== Sys2Proof/Laws/PerInstr.lean ====
section
/-! SUPPORT. Facts about every instruction as syntax, one lemma per constructor: the opcode and the ZERO field of its
word. -/

namespace Sys2Proof.Laws.OpcodeField

open Sys2Proof

/-- The opcode rule R66 (30_encoding.md) gives an instruction. -/
def opcode (i : Instr) : BitVec 8 :=
  match i with
  | .loadReg _ _ => 0x01
  | .storeReg _ _ => 0x02
  | .minMax _ _ => 0x03
  | .maskedMinMax _ _ _ => 0x04
  | .reverse _ _ => 0x05
  | .transpose => 0x06
  | .intraSort _ _ => 0x07
  | .intraSort2 _ _ => 0x08
  | .maskedIntraSort2 _ _ => 0x09
  | .bitonicMerge _ _ => 0x0A
  | .sortBlock _ => 0x0B

/-- The word of an instruction has its opcode in OP and zero in ZERO (rules R60, R61 and R66). -/
def Statement (i : Instr) : Prop := fieldOp (encode i) = opcode i ∧ fieldZero (encode i) = 0

theorem loadReg (vd : RegNum) (addr : Word) : Statement (.loadReg vd addr) := by
  simp [Statement, encode, opcode]
theorem storeReg (vs : RegNum) (addr : Word) : Statement (.storeReg vs addr) := by
  simp [Statement, encode, opcode]
theorem minMax (va vb : RegNum) : Statement (.minMax va vb) := by simp [Statement, encode, opcode]
theorem maskedMinMax (va vb : RegNum) (pat : PatNum) : Statement (.maskedMinMax va vb pat) := by
  simp [Statement, encode, opcode]
theorem reverse (vd vs : RegNum) : Statement (.reverse vd vs) := by simp [Statement, encode, opcode]
theorem transpose : Statement .transpose := by simp [Statement, encode, opcode]
theorem intraSort (vd vs : RegNum) : Statement (.intraSort vd vs) := by simp [Statement, encode, opcode]
theorem intraSort2 (va vb : RegNum) : Statement (.intraSort2 va vb) := by simp [Statement, encode, opcode]
theorem maskedIntraSort2 (va vb : RegNum) : Statement (.maskedIntraSort2 va vb) := by
  simp [Statement, encode, opcode]
theorem bitonicMerge (va vb : RegNum) : Statement (.bitonicMerge va vb) := by simp [Statement, encode, opcode]
theorem sortBlock (addr : Word) : Statement (.sortBlock addr) := by simp [Statement, encode, opcode]

end Sys2Proof.Laws.OpcodeField
end

