-- ==== Sys2Proof/Laws/Step.lean ====
section
/-! SUPPORT. What a step can do, said once, by the host's next move. -/

namespace Sys2Proof.Machine

variable {s : State}

theorem step_idle (h : s.host = []) : step s = .next s := by simp [step, h, idle]

theorem step_move {m : HostMove} {rest : List HostMove} (h : s.host = m :: rest) :
    step s = takeMove m (s.popHost rest) := by simp [step, h]

theorem takeMove_next {m : HostMove} {t : State} (h : takeMove m s = .next t) :
    (∃ w, m = .command w ∧ s.fault = false ∧ runWord w s = .next t) ∨
      (∃ a x, m = .writeByte a x ∧ a.toNat < s.cfg.memBytes ∧ t = s.setMem (s.mem.write a.toNat x)) ∨
      (∃ o v, m = .statusWrite o v ∧ t = s) ∨ (m = .reset ∧ t = s.applyReset) := by
  cases m with
  | command w =>
    simp only [takeMove, acceptWord] at h
    split at h
    · cases h
    · next hf => exact .inl ⟨w, rfl, by simpa using hf, h⟩
  | writeByte a x =>
    simp only [takeMove, State.hostWriteByte] at h
    split at h
    · next ha => exact .inr (.inl ⟨a, x, rfl, ha, (Host.Outcome.next.inj h).symm⟩)
    · cases h
  | statusWrite o v => exact .inr (.inr (.inl ⟨o, v, rfl, (Host.Outcome.next.inj h).symm⟩))
  | reset => exact .inr (.inr (.inr ⟨rfl, (Host.Outcome.next.inj h).symm⟩))

/-- What running an accepted word can do: the fault entry (with the word itself when it does not decode), or the
counted effect of the instruction it decodes to. -/
theorem runWord_next {w : CmdWord} {t : State} (h : runWord w s = .next t) :
    (∃ e, decode s.cfg w = .error e ∧ t = s.enterFault .illegal w) ∨
      ∃ i, decode s.cfg w = .ok i ∧
        ((∃ f, t = s.enterFault f (encode i)) ∨ ∃ u, Effect i s u ∧ t = u.count) := by
  unfold runWord at h
  split at h
  · next e he => exact .inl ⟨e, he, (Host.Outcome.next.inj h).symm⟩
  · next i hi => exact .inr ⟨i, hi, exec_next h⟩

end Sys2Proof.Machine
end

