-- ==== Sys2Proof/Tests/Slice0.lean ====
section
/-! SUPPORT. Tests: well-formedness and decoding by words written out from rules R60 and R66, one step per command
against the spec's vectors (95_test_vectors.md), and a witness for the hypotheses of every obligation that has any. -/

namespace Sys2Proof.Tests

open Sys2Proof Sys2Proof.Machine

set_option maxRecDepth 8000

/-! ### Helpers -/

/-- Whether an outcome is a next state with the property `p`. -/
def nextWith (o : Host.Outcome State Fault Refusal) (p : State → Bool) : Bool :=
  match o with
  | .next t => p t
  | .fault _ => false
  | .refused _ => false

theorem exists_of_nextWith {o : Host.Outcome State Fault Refusal} {p : State → Bool} (h : nextWith o p = true) :
    ∃ t, o = .next t ∧ p t = true := by
  cases o with
  | next t => exact ⟨t, rfl, h⟩
  | fault f => cases h
  | refused r => cases h

/-- The instances of the vectors. -/
def narrowI64 : Config := { wide := false, etype := .i64, memBytes := 0x100 }
def narrowF32 : Config := { wide := false, etype := .f32, memBytes := 0x100 }
def narrowF64 : Config := { wide := false, etype := .f64, memBytes := 0x100 }
def wideI32 : Config := { wide := true, etype := .i32, memBytes := 0x400 }

/-- An element from a signed number, on an instance. -/
def el (c : Config) (v : Int) : Elem := BitVec.ofNat 64 (v % 2 ^ c.ebits).toNat

/-- A freshly reset instance with some registers loaded. -/
def withRegs (c : Config) (l : List (RegNum × List Int)) : State :=
  l.foldl (fun s p => s.writeReg p.1 (p.2.map (el c))) (State.powerOn c)

/-- The state with elements stored from address `a` on. -/
def withElems (s : State) (a : Nat) (l : List Int) : State :=
  s.setMem (l.zipIdx.foldl (fun m p => memWrite m (a + p.2 * s.cfg.ebytes) s.cfg.ebytes (el s.cfg p.1).toNat) s.mem)

def row1 : List Int := [3, 0, 2, 2, 5, 9, 1, -1]
def row2 : List Int := [1, 1, 2, 2, 7, 7, 0, 0]

/-- Narrow I32, the two rows of T11, T12 and T23 in v1 and v2. -/
def s8 : State := withRegs narrowI32 [(1, row1), (2, row2)]

/-- The block of T30 at 0x80 of a narrow I64 instance. -/
def block30 : List Int := [9, -3, 7, 0, 4, 4, -8, 12, 1, 15, 2, -1, 6, -3, 5, 3]

/-- Narrow I64, the block of T30 in memory and the first two of its sorted rows, and two more, in v0 to v3. -/
def s4 : State :=
  withElems (withRegs narrowI64 [(0, [1, 4, 6, 9]), (1, [-3, -3, 4, 15]), (2, [-8, 2, 5, 7]), (3, [-1, 0, 3, 12])])
    0x80 block30

/-- The halted state after the word 0. -/
def halted : State := (State.powerOn narrowI64).enterFault .illegal 0

/-! ### Well-formedness: an ill-formed term for each check -/

theorem test_wf_same_registers : (Instr.minMax 1 1).wf narrowI32 = false ∧
    (Instr.maskedMinMax 2 2 0).wf narrowI32 = false ∧ (Instr.intraSort2 3 3).wf narrowI32 = false ∧
    (Instr.maskedIntraSort2 4 4).wf narrowI32 = false ∧ (Instr.bitonicMerge 5 5).wf narrowI32 = false ∧
    (Instr.reverse 6 6).wf narrowI32 = true ∧ (Instr.intraSort 7 7).wf narrowI32 = true := by decide

theorem test_wf_pattern : (Instr.maskedMinMax 1 2 4).wf narrowI32 = false ∧
    (Instr.maskedMinMax 1 2 3).wf narrowI32 = true ∧ (Instr.maskedMinMax 1 2 4).wf wideI32 = true ∧
    (Instr.maskedMinMax 1 2 3).wf narrowI64 = false := by decide

/-! ### Decoding: words put together by hand from the field layout, OP RA RB PAT ZERO ADDR -/

theorem test_decode_loadReg : decode narrowI32 0x0130000000000040 = .ok (.loadReg 3 0x40) := by decide
theorem test_decode_storeReg : decode narrowI32 0x02F0000000000020 = .ok (.storeReg 15 0x20) := by decide
theorem test_decode_minMax : decode narrowI32 0x03AB000000000000 = .ok (.minMax 10 11) := by decide
theorem test_decode_maskedMinMax : decode narrowI32 0x0412200000000000 = .ok (.maskedMinMax 1 2 2) := by decide
theorem test_decode_reverse : decode narrowI32 0x0543000000000000 = .ok (.reverse 4 3) := by decide
theorem test_decode_transpose : decode narrowI32 0x0600000000000000 = .ok .transpose := by decide
theorem test_decode_intraSort : decode narrowI32 0x0750000000000000 = .ok (.intraSort 5 0) := by decide
theorem test_decode_intraSort2 : decode narrowI32 0x0812000000000000 = .ok (.intraSort2 1 2) := by decide
theorem test_decode_maskedIntraSort2 : decode narrowI32 0x0923000000000000 = .ok (.maskedIntraSort2 2 3) := by decide
theorem test_decode_bitonicMerge : decode narrowI32 0x0A21000000000000 = .ok (.bitonicMerge 2 1) := by decide
theorem test_decode_sortBlock : decode narrowI32 0x0B00000000000100 = .ok (.sortBlock 0x100) := by decide

/-- The illegal words of T41, and pattern 4 on instances that lack it and have it. -/
theorem test_decode_illegal :
    decode narrowI32 0x0312100000000000 = .error .unusedFieldNotZero ∧
    decode narrowI32 0x0312000000000001 = .error .unusedFieldNotZero ∧
    decode narrowI32 0x0601000000000000 = .error .unusedFieldNotZero ∧
    decode narrowI32 0x0B00100000000000 = .error .unusedFieldNotZero ∧
    decode narrowI32 0x0112000000000040 = .error .unusedFieldNotZero ∧
    decode narrowI32 0x0D00000000000000 = .error .unassignedOpcode ∧
    decode narrowI32 0xFFFFFFFFFFFFFFFF = .error .zeroFieldNotZero ∧
    decode narrowI32 0x0110080000000040 = .error .zeroFieldNotZero ∧
    decode narrowI32 0x0412400000000000 = .error .patternOutOfRange ∧
    decode wideI32 0x0412400000000000 = .ok (.maskedMinMax 1 2 4) := by decide

/-- The examples of rule R71. -/
theorem test_encode : encode (.maskedMinMax 1 2 2) = 0x0412200000000000 ∧
    encode (.loadReg 3 0x40) = 0x0130000000000040 := by decide

/-! ### One step per command, against the spec's vectors -/

/-- T16: the row at 0x40, read from memory. -/
theorem test_loadReg_row : nextWith (exec (.loadReg 1 0x40) (withElems (State.powerOn narrowI32) 0x40 row1))
    (fun t => t.lanes 1 == row1.map (el narrowI32) && t.valid 1 && t.cmdcnt == 1) = true := by decide

/-- T16: on a wide instance address 0x20 is misaligned. -/
theorem test_loadReg_misaligned : nextWith (exec (.loadReg 0 0x20) (State.powerOn wideI32))
    (fun t => statusRead t 0x04 == 0x31 && t.faddr == 0x20 && t.cmdcnt == 0 && !t.valid 0) = true := by decide

/-- T16: STOREREG v2, 0x20 on a narrow I64 instance; three of the bytes written. -/
theorem test_storeReg_bytes : nextWith
    (exec (.storeReg 2 0x20) (withElems (withRegs narrowI64 [(2, [1, -1, 16, -9223372036854775808])]) 0x40 [5]))
    (fun t => t.mem.read 0x20 == 1 && t.mem.read 0x28 == 0xFF && t.mem.read 0x2F == 0xFF && t.mem.read 0x30 == 0x10 &&
      t.mem.read 0x3E == 0 && t.mem.read 0x3F == 0x80 && t.mem.read 0x40 == 5) = true := by decide

/-- T40: STOREREG of an unwritten register to a misaligned address reports UNWRITTEN. -/
theorem test_storeReg_priority : nextWith (exec (.storeReg 1 0x44) (State.powerOn narrowI32))
    (fun t => statusRead t 0x04 == 0x21 && t.faddr == 0 && statusRead t 0x18 == 0x02100000 &&
      statusRead t 0x14 == 0x44) = true := by decide

/-- T11. -/
theorem test_minMax_i32 : nextWith (exec (.minMax 1 2) s8)
    (fun t => t.lanes 1 == [1, 0, 2, 2, 5, 7, 0, -1].map (el narrowI32) &&
      t.lanes 2 == [3, 1, 2, 2, 7, 9, 1, 0].map (el narrowI32)) = true := by decide

/-- T11, floats: lanes 0, 1, 2, 3 and 5 of the F32 vector (both zeros, NaNs of both signs, a signalling NaN). -/
theorem test_minMax_f32 : nextWith
    (exec (.minMax 0 1) (withRegs narrowF32
      [(0, [0x3F800000, 0x80000000, 0x7FC00000, 0xBF800000, 0x00000000, 0xFF800000, 0x7F800000, 0x00000001]),
       (1, [0xBF800000, 0x00000000, 0x3F800000, 0xFFC00000, 0x80000000, 0x7F800001, 0xC0000000, 0x80000001])]))
    (fun t => t.lanes 0 ==
        [0xBF800000, 0x80000000, 0x3F800000, 0xFFC00000, 0x80000000, 0xFF800000, 0xC0000000, 0x80000001] &&
      t.lanes 1 ==
        [0x3F800000, 0x00000000, 0x7FC00000, 0xBF800000, 0x00000000, 0x7F800001, 0x7F800000, 0x00000001]) = true := by
  decide

/-- T12, patterns 2 and 3. -/
theorem test_maskedMinMax_2 : nextWith (exec (.maskedMinMax 1 2 2) s8)
    (fun t => t.lanes 1 == [2, 0, 1, 1, 0, 0, 1, -1].map (el narrowI32) &&
      t.lanes 2 == [2, 2, 2, 3, 7, 7, 9, 5].map (el narrowI32)) = true := by decide
theorem test_maskedMinMax_3 : nextWith (exec (.maskedMinMax 1 2 3) s8)
    (fun t => t.lanes 1 == [0, 0, 2, 2, 2, 2, 1, -1].map (el narrowI32) &&
      t.lanes 2 == [1, 1, 9, 5, 7, 7, 0, 3].map (el narrowI32)) = true := by decide

/-- T14: in place, W = 4. -/
theorem test_reverse_in_place : nextWith (exec (.reverse 0 0) (withRegs narrowI64 [(0, [7, -2, 7, 0])]))
    (fun t => t.lanes 0 == [0, 7, -2, 7].map (el narrowI64)) = true := by decide

/-- T15: v4 is untouched; and with VV[3] = 0 the command faults. -/
theorem test_transpose : nextWith
    (exec .transpose (withRegs narrowI64 [(0, [0, 1, 2, 3]), (1, [10, 11, 12, 13]), (2, [20, 21, 22, 23]),
      (3, [30, 31, 32, 33]), (4, [99, 99, 99, 99])]))
    (fun t => t.lanes 0 == [0, 10, 20, 30] && t.lanes 3 == [3, 13, 23, 33] && t.lanes 4 == [99, 99, 99, 99]) =
      true := by decide
theorem test_transpose_unwritten : nextWith (exec .transpose (withRegs narrowI64 [(0, [0, 1, 2, 3])]))
    (fun t => statusRead t 0x04 == 0x21 && t.lanes 0 == [0, 1, 2, 3]) = true := by decide

/-- T20. -/
theorem test_intraSort_i32 : nextWith (exec (.intraSort 1 1) s8)
    (fun t => t.lanes 1 == [-1, 0, 1, 2, 2, 3, 5, 9].map (el narrowI32)) = true := by decide

/-- T21, floats: 1.0, a negative NaN, -0 and +infinity. -/
theorem test_intraSort_f64 : nextWith
    (exec (.intraSort 0 0) (withRegs narrowF64
      [(0, [0x3FF0000000000000, 0xFFF8000000000000, 0x8000000000000000, 0x7FF0000000000000])]))
    (fun t => t.lanes 0 == [0xFFF8000000000000, 0x8000000000000000, 0x3FF0000000000000, 0x7FF0000000000000]) =
      true := by decide

/-- T22. -/
theorem test_intraSort2 : nextWith
    (exec (.intraSort2 1 2) (withRegs narrowI32 [(1, [-1, 0, 1, 2, 2, 3, 5, 9]), (2, [0, 0, 1, 1, 2, 2, 7, 7])]))
    (fun t => t.lanes 1 == [-1, 0, 0, 0, 1, 1, 1, 2].map (el narrowI32) &&
      t.lanes 2 == [2, 2, 2, 3, 5, 7, 7, 9]) = true := by decide

/-- P5, step 2. -/
theorem test_maskedIntraSort2 : nextWith (exec (.maskedIntraSort2 2 3) s4)
    (fun t => t.lanes 2 == [-8, -1, 0, 2].map (el narrowI64) && t.lanes 3 == [3, 5, 7, 12]) = true := by decide

/-- T23, operands out of contract, W = 8 and W = 4. -/
theorem test_bitonicMerge_8 : nextWith (exec (.bitonicMerge 1 2) s8)
    (fun t => t.lanes 1 == [-1, 0, 0, 1, 2, 2, 2, 2].map (el narrowI32) && t.lanes 2 == [0, 1, 1, 3, 5, 7, 7, 9]) =
      true := by decide
theorem test_bitonicMerge_4 : nextWith
    (exec (.bitonicMerge 0 1) (withRegs narrowI64 [(0, [2, 1, 5, 7]), (1, [3, 6, 8, 1])]))
    (fun t => t.lanes 0 == [1, 1, 3, 5] && t.lanes 1 == [2, 7, 6, 8]) = true := by decide

/-- T30. -/
theorem test_sortBlock : nextWith (exec (.sortBlock 0x80) s4)
    (fun t => t.lanes 0 == [1, 4, 6, 9] && t.lanes 1 == [-3, -3, 4, 15].map (el narrowI64) &&
      t.lanes 2 == [-8, 2, 5, 7].map (el narrowI64) && t.lanes 3 == [-1, 0, 3, 12].map (el narrowI64) &&
      loadRow t.cfg t.mem 0xE0 == [-1, 0, 3, 12].map (el narrowI64) && t.mem.read 0x88 == 4) = true := by decide

/-- T32: a block that runs off the end of memory. -/
theorem test_sortBlock_bounds : nextWith (exec (.sortBlock 0x120) (State.powerOn narrowI32))
    (fun t => statusRead t 0x04 == 0x41 && t.faddr == 0x120 && statusRead t 0x0C == 0) = true := by decide

/-- T10, element order of F32: each pattern is less than the next. -/
theorem test_float_order : ([0xFFFFFFFF, 0xFFC00000, 0xFF800000, 0xBF800000, 0x80000001, 0x80000000, 0x00000000,
    0x00000001, 0x3F800000, 0x7F800000, 0x7F800001, 0x7FC00000, 0x7FFFFFFF].map (key narrowF32)).IsChain (· < ·) ∧
    key narrowF32 0xFFC00000 = -2143289345 := by decide

/-- T42: CFG of the eight instances. -/
theorem test_cfg : [cfgWord narrowI32, cfgWord narrowI64, cfgWord narrowF32, cfgWord narrowF64, cfgWord wideI32,
    cfgWord { wide := true, etype := .i64, memBytes := 0 }, cfgWord { wide := true, etype := .f32, memBytes := 0 },
    cfgWord { wide := true, etype := .f64, memBytes := 0 }] =
    [0x1040, 0x1021, 0x1042, 0x1023, 0x1084, 0x1045, 0x1086, 0x1047] := by decide

/-- T40: the all-zero word, and a word offered by `withFetchWord` that runs as the first after reset. -/
theorem test_step_illegal_word : nextWith (step ((State.powerOn narrowI32).withFetchWord 64 0))
    (fun t => statusRead t 0x04 == 0x11 && t.fcmd == 0 && t.cmdcnt == 0 && t.host.isEmpty) = true := by decide
theorem test_step_first_word : nextWith (step (State.reset.withFetchWord 64 0x0B00000000000000))
    (fun t => t.cmdcnt == 1 && statusRead t 0x04 == 0 && statusRead t 0x0C == 0xFFFF) = true := by decide

/-- T43: reset from the halted state. -/
theorem test_step_reset : nextWith (step { halted with host := [.reset] })
    (fun t => !t.fault && t.fcode == 0 && statusRead t 0x0C == 0 && t.mem == halted.mem) = true := by decide

/-! ### Witnesses: states and operands that meet the hypotheses of each obligation -/

theorem witness_DecodeOfEncode : (Instr.maskedMinMax 15 0 4).wf wideI32 = true ∧
    (Instr.loadReg 15 0xFFFFFFFF).wf wideI32 = true ∧ (Instr.bitonicMerge 0 15).wf narrowF64 = true := by decide

theorem witness_EncodeOfDecode : decode wideI32 0x04F0400000000000 = .ok (.maskedMinMax 15 0 4) := by decide

/-- One illegal word for each cause of rule R131, at its boundary where it has one. -/
theorem witness_IllegalWordsExactly :
    IllegalWord narrowI32 0x0600000100000000 ∧ IllegalWord narrowI32 0x0000000000000000 ∧
    IllegalWord narrowI32 0x0C00000000000000 ∧ IllegalWord narrowI32 0x0610000000000000 ∧
    IllegalWord narrowI32 0x0B01000000000000 ∧ IllegalWord narrowI32 0x0300100000000000 ∧
    IllegalWord narrowI32 0x0500000000000001 ∧ IllegalWord narrowI32 0x0A77000000000000 ∧
    IllegalWord narrowI32 0x0412400000000000 ∧
    ({ State.powerOn narrowI32 with host := [.command 0] } : State).fault = false := by
  unfold IllegalWord
  refine ⟨?_, ?_, ?_, ?_, ?_, ?_, ?_, ?_, ?_, ?_⟩ <;> decide

theorem witness_StepRunsDecodedInstruction :
    ({ s4 with host := [.command 0x0600000000000000] } : State).host = .command 0x0600000000000000 :: [] ∧
    s4.fault = false ∧ decode s4.cfg 0x0600000000000000 = .ok .transpose := by decide

theorem witness_OfferedWordIsNext : State.reset.fault = false ∧ halted.fault = true := by decide

/-- A halted state with each kind of move, and with none; all but the command word give a next state. -/
theorem witness_HaltedUntilReset : halted.fault = true ∧
    nextWith (step halted) (fun t => t.fault) = true ∧
    nextWith (step { halted with host := [.writeByte 5 7] }) (fun t => t.fault && t.mem.read 5 == 7) = true ∧
    nextWith (step { halted with host := [.reset] }) (fun t => !t.fault) = true ∧
    ({ halted with host := [.command 0x0B00000000000000] } : State).host = .command 0x0B00000000000000 :: [] := by
  decide

theorem witness_IdleHoldsState : State.reset.host = [] := by decide

theorem witness_ResetMoveClears : ({ halted with host := [.reset] } : State).host = .reset :: [] := by decide

/-- The last byte of memory and the first address beyond it. -/
theorem witness_HostWriteStoresByte : (0xFF : Word).toNat < narrowI64.memBytes ∧
    narrowI64.memBytes ≤ (0x100 : Word).toNat ∧
    ({ s4 with host := [.writeByte 0xFF 9] } : State).host = .writeByte 0xFF 9 :: [] := by decide

theorem witness_StatusPortMap : 0x1C ∉ [0x00, 0x04, 0x08, 0x0C, 0x10, 0x14, 0x18] ∧
    1 ∉ [0x00, 0x04, 0x08, 0x0C, 0x10, 0x14, 0x18] ∧
    ({ s4 with host := [.statusWrite 8 1] } : State).host = .statusWrite 8 1 :: [] := by decide

theorem witness_PowerOnMeetsInvariant : Config.standard.wf = true ∧ narrowI64.wf = true := by decide

theorem witness_StepKeepsInvariant : ∃ s t : State, s.Inv ∧ step s = .next t := by
  obtain ⟨t, ht, -⟩ := exists_of_nextWith
    (show nextWith (step { s4 with host := [.command 0x0B00000000000080] }) (fun t => t.cmdcnt == 1) = true by decide)
  exact ⟨_, t, by decide, ht⟩

theorem witness_InstanceNeverChanges : ∃ t, step { s4 with host := [.command 0x0600000000000000] } = .next t := by
  obtain ⟨t, ht, -⟩ := exists_of_nextWith
    (show nextWith (step { s4 with host := [.command 0x0600000000000000] }) (fun t => t.cmdcnt == 1) = true by decide)
  exact ⟨t, ht⟩

theorem witness_OnlyResetClearsValidBits : ∃ t, step { s4 with host := [.command 0x0110000000000084] } = .next t ∧
    (∀ rest, ({ s4 with host := [.command 0x0110000000000084] } : State).host ≠ .reset :: rest) ∧
    s4.valid 3 = true := by
  obtain ⟨t, ht, -⟩ := exists_of_nextWith
    (show nextWith (step { s4 with host := [.command 0x0110000000000084] }) (fun t => t.fault) = true by decide)
  exact ⟨t, ht, by simp, by decide⟩

/-- A word that completes and a word that faults. -/
theorem witness_AcceptedCommandCountsOrFaults : s4.fault = false ∧
    nextWith (step { s4 with host := [.command 0x0600000000000000] }) (fun t => !t.fault) = true ∧
    nextWith (step { s4 with host := [.command 0x0C00000000000000] }) (fun t => t.fault) = true := by decide

/-- A word that is no command, and a misaligned LOADREG. -/
theorem witness_FaultEntryIsPrecise : s4.fault = false ∧
    (∃ t, runWord 0 s4 = .next t ∧ t.fault = true) ∧ ∃ t, runWord 0x0110000000000084 s4 = .next t ∧ t.fault = true := by
  exact ⟨by decide, exists_of_nextWith (p := fun t => t.fault) (by decide),
    exists_of_nextWith (p := fun t => t.fault) (by decide)⟩

/-- One word for each of the five ways: no command; an unwritten source (misaligned too); misaligned (out of bounds
too); out of bounds; none. -/
theorem witness_FirstFailingCheckIsTheFault : IllegalWord s4.cfg 0 ∧
    (∃ r ∈ sources s4.cfg (.storeReg 9 0x44), s4.valid r = false) ∧
    (accessed s4.cfg (.loadReg 0 0x101) = some (0x101, 0x20) ∧ (0x101 : Word).toNat % s4.cfg.vbytes ≠ 0) ∧
    (accessed s4.cfg (.sortBlock 0xA0) = some (0xA0, 0x80) ∧ (0xA0 : Word).toNat % s4.cfg.vbytes = 0 ∧
      s4.cfg.memBytes < (0xA0 : Word).toNat + 0x80) ∧
    (∀ r ∈ sources s4.cfg (.storeReg 3 0xE0), s4.valid r = true) ∧ AddrOk s4.cfg 0xE0 0x20 ∧
    decode s4.cfg 0x02300000000000E0 = .ok (.storeReg 3 0xE0) := by
  refine ⟨?_, by decide, by decide, by decide, by decide, ?_, by decide⟩
  · unfold IllegalWord
    decide
  · unfold AddrOk
    decide

/-- Two states that differ in a written lane and in memory. -/
theorem witness_FaultsIndependentOfData :
    let t := withElems (s4.writeReg 0 [5, 5, 5, 5]) 0 [7]
    t.cfg = s4.cfg ∧ (∀ r, t.valid r = s4.valid r) ∧ SameFaultRegs s4 t ∧ t.cmdcnt = s4.cmdcnt ∧
      (∃ s', exec (.minMax 0 1) s4 = .next s') ∧ ∃ t', exec (.minMax 0 1) t = .next t' := by
  refine ⟨by decide, by decide, by unfold SameFaultRegs; decide, by decide, ?_, ?_⟩
  · obtain ⟨t, ht, -⟩ := exists_of_nextWith (show nextWith (exec (.minMax 0 1) s4) (fun _ => true) = true by decide)
    exact ⟨t, ht⟩
  · obtain ⟨t, ht, -⟩ := exists_of_nextWith (show nextWith
      (exec (.minMax 0 1) (withElems (s4.writeReg 0 [5, 5, 5, 5]) 0 [7])) (fun _ => true) = true by decide)
    exact ⟨t, ht⟩

/-- Two different states that differ in an unwritten lane only. -/
theorem witness_UnwrittenLanesUnobservable :
    let t := { s4 with regs := s4.regs.set 9 { lanes := [1, 2, 3, 4], valid := false } }
    SameButUnwritten s4 t ∧ t ≠ s4 := by
  refine ⟨?_, by decide⟩
  simp only [SameButUnwritten, SameFaultRegs]
  decide

theorem witness_RunEndingWellCountsItsWords : ∃ t, EndsWell [0x0600000000000000, 0x0312000000000000] s4 t := by
  obtain ⟨t, ht, hf⟩ := exists_of_nextWith (p := fun t => !t.fault)
    (show nextWith (Host.Core.run Sys2Proof.core 2 (offer [0x0600000000000000, 0x0312000000000000] s4))
      (fun t => !t.fault) = true by decide)
  exact ⟨t, ht, by simpa using hf⟩

/-- The extreme patterns of the integer instances. -/
theorem witness_IntegerKeyIsSigned : IsElem narrowI32 0x80000000 ∧ IsElem narrowI32 0x7FFFFFFF ∧
    narrowI32.etype = .i32 ∧ IsElem narrowI64 0x8000000000000000 ∧ narrowI64.etype = .i64 := by decide

theorem witness_FloatKeyIsSignMagnitude : IsElem narrowF32 0x80000000 ∧ narrowF32.etype = .f32 ∧
    IsElem narrowF64 0xFFFFFFFFFFFFFFFF ∧ narrowF64.etype = .f64 := by decide

theorem witness_OrderIsAntisymmetric : IsElem narrowF32 0x80000000 ∧ elemLe narrowF32 0x80000000 0x80000000 := by
  decide

/-- Operands in order, and operands out of order (-0 and +0). -/
theorem witness_CompareExchangeRearranges : elemLe narrowF32 0x80000000 0x00000000 ∧
    ¬ elemLe narrowF32 0x00000000 0x80000000 := by decide

theorem witness_MemWriteIsLittleEndian : 0xFFFFFFFF < 256 ^ 4 := by decide

theorem witness_CanonicalMemoriesAgree : s4.mem.wf = true ∧ Memory.wf [] = true ∧
    Memory.wf [(3, 0), (3, 1)] = false ∧ Memory.wf [(4, 0), (3, 1)] = false := by
  decide

/-- The last row of memory. -/
theorem witness_StoreThenLoadReproduces : s4.Inv ∧ s4.valid 2 = true ∧ AddrOk s4.cfg 0xE0 s4.cfg.vbytes := by
  refine ⟨by decide, by decide, ?_⟩
  unfold AddrOk
  decide

/-- A row that nothing has written, and one that has been. -/
theorem witness_LoadThenStoreKeepsMemory : s4.mem.written 0x40 = none ∧ AddrOk s4.cfg 0x40 s4.cfg.vbytes ∧
    AddrOk s4.cfg 0x80 s4.cfg.vbytes := by
  unfold AddrOk
  decide

theorem witness_LoadRegLoadsRow : AddrOk s4.cfg 0xE0 s4.cfg.vbytes ∧ AddrOk s4.cfg 0 s4.cfg.vbytes := by
  unfold AddrOk
  decide

theorem witness_StoreRegStoresRow : s4.valid 3 = true ∧ AddrOk s4.cfg 0xE0 s4.cfg.vbytes := by
  unfold AddrOk
  decide

theorem witness_MinMaxComparesLanes : (1 : RegNum) ≠ 2 ∧ s8.valid 1 = true ∧ s8.valid 2 = true := by decide

/-- The least and the greatest pattern of the instance. -/
theorem witness_MaskedMinMaxComparesPairs : (1 : RegNum) ≠ 2 ∧ (0 : PatNum).val ≤ s8.cfg.logw ∧
    (3 : PatNum).val ≤ s8.cfg.logw ∧ s8.valid 1 = true ∧ s8.valid 2 = true := by decide

theorem witness_PatternTable : 3 ≤ narrowI32.logw ∧ 7 < narrowI32.w := by decide

theorem witness_ReverseReversesLanes : s8.valid 1 = true := by decide

theorem witness_TransposeExchangesRowsAndColumns :
    (∀ r : RegNum, r.val < s4.cfg.w → s4.valid r = true) ∧ (3 : RegNum).val < s4.cfg.w := by decide

theorem witness_IntraSortSorts : s8.valid 2 = true := by decide

/-- The three commands, on operands that are not ascending. -/
theorem witness_MergeCommandsApplyNetwork : (1 : RegNum) ≠ 2 ∧ s8.valid 1 = true ∧ s8.valid 2 = true ∧
    Instr.bitonicMerge 1 2 ∈ [Instr.intraSort2 1 2, Instr.maskedIntraSort2 1 2, Instr.bitonicMerge 1 2] := by decide

theorem witness_MergeCommandsMergeSorted : (0 : RegNum) ≠ 1 ∧ s4.valid 0 = true ∧ s4.valid 1 = true ∧
    Ascending s4.cfg (s4.lanes 0) ∧ Ascending s4.cfg (s4.lanes 1) ∧
    Instr.intraSort2 0 1 ∈ [Instr.intraSort2 0 1, Instr.maskedIntraSort2 0 1, Instr.bitonicMerge 0 1] := by decide

theorem witness_SortBlockSortsColumns : AddrOk s4.cfg 0x80 s4.cfg.blockBytes ∧ (3 : RegNum).val < s4.cfg.w := by
  unfold AddrOk
  decide

/-- Misaligned; the first row beyond memory; the first block that does not fit; each with a written register. -/
theorem witness_AddressFaults : (0x9F : Word).toNat % s4.cfg.vbytes ≠ 0 ∧ s4.valid 0 = true ∧
    (0x100 : Word).toNat % s4.cfg.vbytes = 0 ∧ s4.cfg.memBytes < (0x100 : Word).toNat + s4.cfg.vbytes ∧
    (0xA0 : Word).toNat % s4.cfg.vbytes = 0 ∧ s4.cfg.memBytes < (0xA0 : Word).toNat + s4.cfg.blockBytes := by decide

theorem witness_UnwrittenSourceFaults : (Instr.storeReg 9 0x44).wf s4.cfg = true ∧ s4.valid 9 = false ∧
    (Instr.minMax 0 9).wf s4.cfg = true ∧ (Instr.minMax 9 0).wf s4.cfg = true ∧ Instr.transpose.wf s4.cfg = true ∧
    (3 : RegNum).val < narrowI64.w ∧ (State.powerOn narrowI64).valid 3 = false ∧
    nextWith (exec (.sortBlock 0x81) s4) (fun t => t.fault) = true ∧
    nextWith (exec (.loadReg 9 0x80) s4) (fun t => !t.fault) = true := by decide

theorem witness_IllFormedOperandsFault : (Instr.minMax 0 0).wf s4.cfg = false ∧
    (Instr.maskedMinMax 0 1 3).wf s4.cfg = false := by decide

/-- Every command that stores nothing gives a next state here. -/
theorem witness_RegisterCommandsFrame :
    ∀ i ∈ [Instr.loadReg 9 0x80, .reverse 1 1, .intraSort 9 1, .minMax 0 1, .maskedMinMax 0 1 2, .intraSort2 0 1,
      .maskedIntraSort2 0 1, .bitonicMerge 0 1, .transpose], ∃ t, exec i s4 = .next t := by
  intro i hi
  have h : ([Instr.loadReg 9 0x80, .reverse 1 1, .intraSort 9 1, .minMax 0 1, .maskedMinMax 0 1 2, .intraSort2 0 1,
      .maskedIntraSort2 0 1, .bitonicMerge 0 1, .transpose].all fun i =>
        nextWith (exec i s4) (fun t => t.cmdcnt == 1)) = true := by decide
  obtain ⟨t, ht, -⟩ := exists_of_nextWith (List.all_eq_true.mp h i hi)
  exact ⟨t, ht⟩

theorem witness_StoreRegFrame : ∃ t, exec (.storeReg 1 0x20) s4 = .next t ∧ (t.cmdcnt == 1) = true :=
  exists_of_nextWith (p := fun t => t.cmdcnt == 1) (by decide)

theorem witness_SortBlockFrame : ∃ t, exec (.sortBlock 0x80) s4 = .next t ∧ (t.cmdcnt == 1) = true :=
  exists_of_nextWith (p := fun t => t.cmdcnt == 1) (by decide)

theorem witness_ReverseTwiceIsIdentity : s4.valid 2 = true := by decide

theorem witness_TransposeTwiceIsIdentity : ∀ r : RegNum, r.val < s4.cfg.w → s4.valid r = true := by decide

theorem witness_MinMaxTwiceIsOnce : (0 : RegNum) ≠ 1 ∧ s4.valid 0 = true ∧ s4.valid 1 = true := by decide

theorem witness_ComparatorsPermuteLanes :
    Instr.maskedMinMax 0 1 2 ∈ [Instr.minMax 0 1, Instr.maskedMinMax 0 1 2] ∧
    (Instr.maskedMinMax 0 1 2).wf s4.cfg = true ∧ (Instr.minMax 0 1).wf s4.cfg = true ∧ s4.valid 0 = true ∧
    s4.valid 1 = true ∧ s4.valid 2 = true ∧ ∀ r : RegNum, r.val < s4.cfg.w → s4.valid r = true := by decide

theorem witness_MaskedPatternIdentities : (2 : RegNum) ≠ 3 ∧ s4.valid 2 = true ∧ s4.valid 3 = true ∧
    (0 : PatNum).val ≤ s4.cfg.logw ∧ (2 : PatNum).val ≤ s4.cfg.logw := by decide

theorem witness_MergeCommandsAgree : (0 : RegNum) ≠ 3 ∧ s4.valid 0 = true ∧ s4.valid 3 = true := by decide

theorem witness_SortBothThenMergeSorts : (1 : RegNum) ≠ 2 ∧ s8.valid 1 = true ∧ s8.valid 2 = true := by decide

theorem witness_SortBlockIsItsProgram : s4.cfg.wf = true ∧ AddrOk s4.cfg 0x80 s4.cfg.blockBytes := by
  unfold AddrOk
  decide

end Sys2Proof.Tests
end

section
/-! The invariant of the machine (rules R8, R20, R30, R33, R45): it holds after power-on, and every operation on the
state keeps it, so every step does. -/

namespace Sys2Proof.Machine

/-! ### Rows: W elements of EBITS bits -/

/-- What a register may hold: W elements of EBITS bits (rules R8 and R20). -/
def RowWf (c : Config) (l : List Elem) : Prop := l.length = c.w ∧ ∀ x ∈ l, IsElem c x

theorem VReg.wf_iff (c : Config) (v : VReg) : v.wf c = true ↔ RowWf c v.lanes := by
  simp [VReg.wf, RowWf]

theorem isElem_zero (c : Config) : IsElem c 0 := by simp

theorem isElem_elemOf (c : Config) (v : Elem) : IsElem c (elemOf c v) := by
  have hlt : v.toNat % 2 ^ c.ebits < 2 ^ c.ebits := Nat.mod_lt _ (Nat.two_pow_pos _)
  exact Nat.lt_of_le_of_lt (by simpa [elemOf] using Nat.mod_le _ _) hlt

theorem isElem_minT {c : Config} {a b : Elem} (ha : IsElem c a) (hb : IsElem c b) : IsElem c (minT c a b) := by
  rcases minT_eq_or c a b with h | h <;> rwa [h]

theorem isElem_maxT {c : Config} {a b : Elem} (ha : IsElem c a) (hb : IsElem c b) : IsElem c (maxT c a b) := by
  rcases maxT_eq_or c a b with h | h <;> rwa [h]

theorem isElem_getD {c : Config} {l : List Elem} (h : ∀ x ∈ l, IsElem c x) (i : Nat) : IsElem c (l.getD i 0) := by
  rw [List.getD_eq_getElem?_getD]
  cases hi : l[i]? with
  | none => exact isElem_zero c
  | some x => exact h x (List.mem_of_getElem? hi)

/-- A list with an entry for each lane number is a row when every entry is an element. -/
theorem rowWf_map_range {c : Config} {f : Nat → Elem} (h : ∀ i < c.w, IsElem c (f i)) :
    RowWf c ((List.range c.w).map f) := by
  refine ⟨by simp, fun x hx => ?_⟩
  obtain ⟨i, hi, rfl⟩ := List.mem_map.mp hx
  exact h i (List.mem_range.mp hi)

theorem RowWf.set {c : Config} {l : List Elem} (h : RowWf c l) (i : Nat) {x : Elem} (hx : IsElem c x) :
    RowWf c (l.set i x) := by
  refine ⟨by simp [h.1], fun y hy => ?_⟩
  rcases List.mem_or_eq_of_mem_set hy with hy | rfl
  · exact h.2 y hy
  · exact hx

theorem RowWf.reverse {c : Config} {l : List Elem} (h : RowWf c l) : RowWf c l.reverse :=
  ⟨by simp [h.1], fun x hx => h.2 x (by simpa using hx)⟩

/-- Combining two rows lane by lane gives a row, when combining two elements gives an element. -/
theorem RowWf.zipWith {c : Config} {a b : List Elem} {f : Elem → Elem → Elem} (ha : RowWf c a) (hb : RowWf c b)
    (hf : ∀ x y, IsElem c x → IsElem c y → IsElem c (f x y)) : RowWf c (List.zipWith f a b) := by
  refine ⟨by simp [ha.1, hb.1], fun z hz => ?_⟩
  rw [← List.map_uncurry_zip_eq_zipWith] at hz
  obtain ⟨⟨x, y⟩, hxy, rfl⟩ := List.mem_map.mp hz
  exact hf x y (ha.2 x (List.of_mem_zip hxy).1) (hb.2 y (List.of_mem_zip hxy).2)

theorem rowWf_loadRow (c : Config) (m : Memory) (a : Nat) : RowWf c (loadRow c m a) :=
  rowWf_map_range fun _ _ => isElem_readElem c m _

/-! ### What the vector operations make of rows -/

theorem rowWf_minMaxLanes {c : Config} {a b : List Elem} (ha : RowWf c a) (hb : RowWf c b) :
    RowWf c (minMaxLanes c a b).1 ∧ RowWf c (minMaxLanes c a b).2 :=
  ⟨ha.zipWith hb fun _ _ => isElem_minT, ha.zipWith hb fun _ _ => isElem_maxT⟩

theorem rowWf_maskedLanes {c : Config} {a b : List Elem} (pairs : List (Nat × Nat)) (ha : RowWf c a)
    (hb : RowWf c b) : RowWf c (maskedLanes c pairs a b).1 ∧ RowWf c (maskedLanes c pairs a b).2 :=
  ⟨foldl_keeps (RowWf c) _ _ _ ha fun _ _ _ h =>
      h.set _ (isElem_minT (isElem_getD ha.2 _) (isElem_getD hb.2 _)),
    foldl_keeps (RowWf c) _ _ _ hb fun _ _ _ h =>
      h.set _ (isElem_maxT (isElem_getD ha.2 _) (isElem_getD hb.2 _))⟩

/-- A property that the compare-exchange passes from its operands to its results passes from the positions of a
sequence through a network. -/
theorem forall_mem_applyNetwork {α : Type} {Q : α → Prop} {cx : α → α → α × α}
    (hcx : ∀ a b, Q a → Q b → Q (cx a b).1 ∧ Q (cx a b).2) (net : Network) {s : List α} (hs : ∀ x ∈ s, Q x) :
    ∀ x ∈ applyNetwork cx net s, Q x := by
  refine applyNetwork_keeps (fun s => ∀ x ∈ s, Q x) cx (fun s p hs x hx => ?_) net s hs
  unfold compareAt at hx
  split at hx
  · next a b ha hb =>
    obtain ⟨hlo, hhi⟩ := hcx a b (hs a (List.mem_of_getElem? ha)) (hs b (List.mem_of_getElem? hb))
    rcases List.mem_or_eq_of_mem_set hx with hx | rfl
    · rcases List.mem_or_eq_of_mem_set hx with hx | rfl
      · exact hs x hx
      · exact hlo
    · exact hhi
  · exact hs x hx

theorem isElem_cmpx {c : Config} (a b : Elem) (ha : IsElem c a) (hb : IsElem c b) :
    IsElem c (cmpx c a b).1 ∧ IsElem c (cmpx c a b).2 := ⟨isElem_minT ha hb, isElem_maxT ha hb⟩

theorem rowWf_sortLanes {c : Config} {l : List Elem} (h : RowWf c l) : RowWf c (sortLanes c l) :=
  ⟨by simp [h.1], forall_mem_applyNetwork isElem_cmpx _ h.2⟩

theorem rowWf_mergeLanes {c : Config} {a b : List Elem} (ha : RowWf c a) (hb : RowWf c b) :
    RowWf c (mergeLanes c a b).1 ∧ RowWf c (mergeLanes c a b).2 := by
  have hin : ∀ x ∈ a ++ b.reverse, IsElem c x := fun x hx =>
    (List.mem_append.mp hx).elim (ha.2 x) fun hx => hb.2 x (List.mem_reverse.mp hx)
  have hout := forall_mem_applyNetwork isElem_cmpx (mergeNetwork c.logw) hin
  exact ⟨⟨length_mergeLanes_fst c a b ha.1 hb.1, fun x hx => hout x (List.mem_of_mem_take hx)⟩,
    ⟨length_mergeLanes_snd c a b ha.1 hb.1, fun x hx => hout x (List.mem_of_mem_drop hx)⟩⟩

/-- Every row of a transpose is a row, when the matrix holds elements only. -/
theorem rowWf_transposeRows {c : Config} {rows : List (List Elem)} (h : ∀ l ∈ rows, RowWf c l) :
    ∀ l ∈ transposeRows c.w rows, RowWf c l := by
  intro l hl
  obtain ⟨i, -, rfl⟩ := List.mem_map.mp hl
  refine rowWf_map_range fun j _ => isElem_getD (fun x hx => ?_) i
  rw [List.getD_eq_getElem?_getD] at hx
  cases hj : rows[j]? with
  | none => simp [hj] at hx
  | some row => exact (h row (List.mem_of_getElem? hj)).2 x (by simpa [hj] using hx)

theorem rowWf_sortedBlockRows (c : Config) (m : Memory) (a : Nat) :
    ∀ l ∈ sortedBlockRows c (loadBlock c m a), RowWf c l := by
  have hload : ∀ l ∈ loadBlock c m a, RowWf c l := by
    intro l hl
    obtain ⟨r, -, rfl⟩ := List.mem_map.mp hl
    exact rowWf_loadRow c m _
  exact rowWf_transposeRows (forall_mem_applyNetwork (fun _ _ => rowWf_minMaxLanes) _ hload)

@[simp] theorem length_sortedBlockRows (c : Config) (rows : List (List Elem)) :
    (sortedBlockRows c rows).length = c.w := length_transposeRows _ _

/-! ### The invariant, and what the operations on the state need to keep it -/

/-- The invariant by its five parts. -/
theorem State.inv_iff (s : State) :
    s.Inv ↔ s.cfg.wf = true ∧ s.mem.wf = true ∧ s.mem.below s.cfg.memBytes = true ∧
      (∀ r, RowWf s.cfg (s.reg r).lanes) ∧ faultRegsOk s = true := by
  have hregs : s.regs.toList.all (VReg.wf s.cfg) = true ↔ ∀ r, RowWf s.cfg (s.reg r).lanes := by
    simp only [← VReg.wf_iff, List.all_eq_true, Vector.mem_toList_iff, State.reg]
    constructor
    · exact fun h r => h _ (Vector.getElem_mem r.isLt)
    · intro h v hv
      obtain ⟨i, hi, rfl⟩ := Vector.getElem_of_mem hv
      exact h ⟨i, hi⟩
  simp only [State.Inv, State.invariant, Bool.and_eq_true, hregs, and_assoc]

theorem faultRegsOk_of_no_fault {s : State} (hf : s.fault = false) (hcode : s.fcode = 0) (haddr : s.faddr = 0)
    (hcmd : s.fcmd = 0) : faultRegsOk s = true := by
  simp [faultRegsOk, hf, hcode, haddr, hcmd]

/-- The fault entry leaves a code from 1 to 4, and address 0 for the codes 1 and 2 (rule R135). -/
theorem faultRegsOk_enterFault (s : State) (f : FaultCause) (w : CmdWord) :
    faultRegsOk (s.enterFault f w) = true := by
  cases f <;> simp [faultRegsOk, FaultCause.code, FaultCause.address]

section
variable {s : State}

/-- Reading a register of W lanes gives a row (rule R23). -/
theorem State.Inv.rowWf_lanes (h : s.Inv) (r : RegNum) : RowWf s.cfg (s.lanes r) := by
  obtain ⟨-, -, -, hregs, -⟩ := s.inv_iff.mp h
  rw [s.lanes_of_length r (hregs r).1]
  exact hregs r

/-- A state with the same parameters and memory meets the invariant when its registers and fault registers do. -/
theorem State.Inv.of_same_mem {t : State} (h : s.Inv) (hcfg : t.cfg = s.cfg) (hmem : t.mem = s.mem)
    (hregs : ∀ r, RowWf s.cfg (t.reg r).lanes) (hfault : faultRegsOk t = true) : t.Inv := by
  obtain ⟨hlegal, hwf, hbelow, -, -⟩ := s.inv_iff.mp h
  rw [State.inv_iff, hcfg, hmem]
  exact ⟨hlegal, hwf, hbelow, hregs, hfault⟩

theorem State.Inv.writeReg (h : s.Inv) (r : RegNum) {l : List Elem} (hl : RowWf s.cfg l) : (s.writeReg r l).Inv := by
  obtain ⟨-, -, -, hregs, hfault⟩ := s.inv_iff.mp h
  refine h.of_same_mem rfl rfl (fun q => ?_) hfault
  rw [State.reg_writeReg]
  split
  · exact hl
  · exact hregs q

theorem State.Inv.writePair (h : s.Inv) (va vb : RegNum) {p : List Elem × List Elem}
    (hp : RowWf s.cfg p.1 ∧ RowWf s.cfg p.2) : (s.writePair va vb p).Inv :=
  State.Inv.writeReg (h.writeReg va hp.1) vb hp.2

/-- Writing V[0] to V[W-1] keeps the invariant when there is a row for each of them. -/
theorem State.Inv.writeBlockRegs (h : s.Inv) {rows : List (List Elem)} (hlen : rows.length = s.cfg.w)
    (hrows : ∀ l ∈ rows, RowWf s.cfg l) : (s.writeBlockRegs rows).Inv := by
  obtain ⟨-, -, -, hregs, hfault⟩ := s.inv_iff.mp h
  refine h.of_same_mem rfl rfl (fun q => ?_) hfault
  rw [State.reg_writeBlockRegs]
  split
  · next hq => simpa [hlen, hq] using hrows _ (List.getElem_mem (hlen ▸ hq))
  · exact hregs q

theorem State.Inv.setMem (h : s.Inv) {m : Memory} (hm : s.mem.wf = true → m.wf = true)
    (hb : s.mem.below s.cfg.memBytes = true → m.below s.cfg.memBytes = true) : (s.setMem m).Inv := by
  obtain ⟨hcfg, hwf, hbelow, hregs, hfault⟩ := s.inv_iff.mp h
  exact (State.inv_iff _).mpr ⟨hcfg, hm hwf, hb hbelow, hregs, hfault⟩

theorem State.Inv.count (h : s.Inv) : s.count.Inv := h

theorem State.Inv.popHost (h : s.Inv) (rest : List HostMove) : (s.popHost rest).Inv := h

theorem State.Inv.enterFault (h : s.Inv) (f : FaultCause) (w : CmdWord) : (s.enterFault f w).Inv := by
  obtain ⟨-, -, -, hregs, -⟩ := s.inv_iff.mp h
  exact h.of_same_mem rfl rfl hregs (faultRegsOk_enterFault s f w)

/-- After reset a register holds W free values, each cut to EBITS bits (rule R160). -/
theorem State.rowWf_applyReset (s : State) (r : RegNum) : RowWf s.cfg (s.applyReset.reg r).lanes := by
  simpa [State.applyReset, State.reg] using rowWf_map_range fun _ _ => isElem_elemOf s.cfg _

theorem State.Inv.applyReset (h : s.Inv) : s.applyReset.Inv :=
  h.of_same_mem rfl rfl s.rowWf_applyReset (faultRegsOk_of_no_fault rfl rfl rfl rfl)

end

/-! ### Commands and steps -/

/-- The effect of every command keeps the invariant: what it writes to a register is a row, and what it stores lies
inside memory. -/
theorem Effect.inv {i : Instr} {s u : State} (he : Effect i s u) (h : s.Inv) : u.Inv := by
  cases i with
  | loadReg vd addr =>
    obtain ⟨-, rfl⟩ := he
    exact h.writeReg vd (rowWf_loadRow _ _ _)
  | storeReg vs addr =>
    obtain ⟨-, ⟨-, hend⟩, rfl⟩ := he
    exact h.setMem (storeRow_wf _ _ _ _) (storeRow_below _ _ _ _ _ hend)
  | minMax va vb =>
    obtain ⟨-, -, -, rfl⟩ := he
    exact h.writePair va vb (rowWf_minMaxLanes (h.rowWf_lanes va) (h.rowWf_lanes vb))
  | maskedMinMax va vb pat =>
    obtain ⟨-, -, -, -, rfl⟩ := he
    exact h.writePair va vb (rowWf_maskedLanes _ (h.rowWf_lanes va) (h.rowWf_lanes vb))
  | reverse vd vs =>
    obtain ⟨-, rfl⟩ := he
    exact h.writeReg vd (h.rowWf_lanes vs).reverse
  | transpose =>
    obtain ⟨-, rfl⟩ := he
    refine h.writeBlockRegs (length_transposeRows _ _) (rowWf_transposeRows fun l hl => ?_)
    obtain ⟨r, -, rfl⟩ := List.mem_map.mp hl
    exact h.rowWf_lanes _
  | intraSort vd vs =>
    obtain ⟨-, rfl⟩ := he
    exact h.writeReg vd (rowWf_sortLanes (h.rowWf_lanes vs))
  | intraSort2 va vb | maskedIntraSort2 va vb | bitonicMerge va vb =>
    obtain ⟨-, -, -, rfl⟩ := he
    exact h.writePair va vb (rowWf_mergeLanes (h.rowWf_lanes va) (h.rowWf_lanes vb))
  | sortBlock addr =>
    obtain ⟨⟨-, hend⟩, rows, rfl, rfl⟩ := he
    exact State.Inv.writeBlockRegs (h.setMem (storeBlock_wf _ _ _ _) (storeBlock_below _ _ _ _ _ hend))
      (length_sortedBlockRows _ _) (rowWf_sortedBlockRows _ _ _)

theorem runWord_inv {w : CmdWord} {s t : State} (h : s.Inv) (ht : runWord w s = .next t) : t.Inv := by
  rcases runWord_next ht with ⟨-, -, rfl⟩ | ⟨i, -, ⟨f, rfl⟩ | ⟨u, he, rfl⟩⟩
  · exact h.enterFault _ _
  · exact h.enterFault _ _
  · exact (he.inv h).count

theorem takeMove_inv {m : HostMove} {s t : State} (h : s.Inv) (ht : takeMove m s = .next t) : t.Inv := by
  rcases takeMove_next ht with ⟨w, -, -, hw⟩ | ⟨a, x, -, ha, rfl⟩ | ⟨-, -, -, rfl⟩ | ⟨-, rfl⟩
  · exact runWord_inv h hw
  · exact h.setMem (Memory.wf_write _ _ _) (Memory.below_write _ _ _ _ ha)
  · exact h
  · exact h.applyReset

/-- Settles O16: a step is idle or takes one move of the host, and every move keeps the invariant. -/
theorem stepKeepsInvariant : Obligations.StepKeepsInvariant := by
  intro s t h ht
  cases hhost : s.host with
  | nil =>
    rw [step_idle hhost] at ht
    exact Host.Outcome.next.inj ht ▸ h
  | cons m rest =>
    rw [step_move hhost] at ht
    exact takeMove_inv (h.popHost rest) ht

/-! ### The parameters -/

/-- No command changes WIDE, ETYPE or MEM_BYTES. -/
theorem Effect.cfg_eq {i : Instr} {s u : State} (he : Effect i s u) : u.cfg = s.cfg := by
  cases i with
  | loadReg | reverse | transpose | intraSort =>
    obtain ⟨-, rfl⟩ := he
    rfl
  | storeReg =>
    obtain ⟨-, -, rfl⟩ := he
    rfl
  | minMax | intraSort2 | maskedIntraSort2 | bitonicMerge =>
    obtain ⟨-, -, -, rfl⟩ := he
    rfl
  | maskedMinMax =>
    obtain ⟨-, -, -, -, rfl⟩ := he
    rfl
  | sortBlock =>
    obtain ⟨-, -, -, rfl⟩ := he
    rfl

theorem takeMove_cfg {m : HostMove} {s t : State} (ht : takeMove m s = .next t) : t.cfg = s.cfg := by
  rcases takeMove_next ht with ⟨w, -, -, hw⟩ | ⟨a, x, -, -, rfl⟩ | ⟨-, -, -, rfl⟩ | ⟨-, rfl⟩
  · rcases runWord_next hw with ⟨-, -, rfl⟩ | ⟨i, -, ⟨f, rfl⟩ | ⟨u, he, rfl⟩⟩
    · rfl
    · rfl
    · exact he.cfg_eq
  · rfl
  · rfl
  · rfl

/-- Settles O17: neither a move of the host nor a command writes the parameters (rule R5). -/
theorem instanceNeverChanges : Obligations.InstanceNeverChanges := by
  intro s t ht
  cases hhost : s.host with
  | nil =>
    rw [step_idle hhost] at ht
    exact Host.Outcome.next.inj ht ▸ rfl
  | cons m rest =>
    rw [step_move hhost] at ht
    exact (takeMove_cfg ht).trans (State.popHost_cfg s rest)

/-! ### Power-on -/

/-- After power-on every register holds the zero row (log entry 3). -/
theorem rowWf_powerOn (c : Config) (r : RegNum) : RowWf c ((State.powerOn c).reg r).lanes := by
  suffices RowWf c (List.replicate c.w 0) by simpa [State.powerOn, State.reg] using this
  exact ⟨by simp, fun x hx => List.eq_of_mem_replicate hx ▸ isElem_zero c⟩

theorem powerOn_inv {c : Config} (hc : c.wf = true) : (State.powerOn c).Inv :=
  (State.inv_iff _).mpr ⟨hc, rfl, rfl, rowWf_powerOn c, faultRegsOk_of_no_fault rfl rfl rfl rfl⟩

/-- Settles O15: State.reset is the power-on state of Config.standard, whose memory size is legal. -/
theorem powerOnMeetsInvariant : Obligations.PowerOnMeetsInvariant :=
  ⟨fun _ => powerOn_inv, powerOn_inv (by decide)⟩

end Sys2Proof.Machine
end

section
/-! Comparator networks (rule R100): a stage position by position, the 0-1 principle, by which a network sorts when it
sorts bits, and the rearrangement of elements. -/

namespace Sys2Proof.Machine

/-! ### Stages and networks, position by position -/

section
variable {α β : Type} {cx : α → α → α × α}

theorem compareAt_eq {s : List α} {p : Comparator} {a b : α} (ha : s[p.1]? = some a) (hb : s[p.2]? = some b) :
    compareAt cx s p = (s.set p.1 (cx a b).1).set p.2 (cx a b).2 := by
  simp [compareAt, ha, hb]

theorem getElem?_compareAt_other {s : List α} {p : Comparator} {i : Nat} (h1 : i ≠ p.1) (h2 : i ≠ p.2) :
    (compareAt cx s p)[i]? = s[i]? := by
  unfold compareAt
  split
  · rw [List.getElem?_set_ne h2.symm, List.getElem?_set_ne h1.symm]
  · rfl

theorem applyStage_cons (s : List α) (p : Comparator) (st : List Comparator) :
    applyStage cx s (p :: st) = applyStage cx (compareAt cx s p) st := rfl

theorem applyNetwork_cons (st : List Comparator) (net : Network) (s : List α) :
    applyNetwork cx (st :: net) s = applyNetwork cx net (applyStage cx s st) := rfl

theorem applyNetwork_append (net net' : Network) (s : List α) :
    applyNetwork cx (net ++ net') s = applyNetwork cx net' (applyNetwork cx net s) := List.foldl_append

/-- A stage leaves a position that none of its comparators names (rule R100). -/
theorem getElem?_applyStage_other {st : List Comparator} {s : List α} {i : Nat}
    (h : ∀ q ∈ st, i ≠ q.1 ∧ i ≠ q.2) : (applyStage cx s st)[i]? = s[i]? := by
  induction st generalizing s with
  | nil => rfl
  | cons q st ih =>
    obtain ⟨h1, h2⟩ := h q (by simp)
    rw [applyStage_cons, ih fun p hp => h p (by simp [hp]), getElem?_compareAt_other h1 h2]

/-- Two comparators that share no position (rule R100). -/
def Comparator.Apart (p q : Comparator) : Prop := p.1 ≠ q.1 ∧ p.1 ≠ q.2 ∧ p.2 ≠ q.1 ∧ p.2 ≠ q.2

/-- A comparator of a stage whose comparators share no position reads the values from before the stage (rule R100),
though the model applies them one after another (log entry 14). -/
theorem getElem?_applyStage {st : List Comparator} (hst : st.Pairwise Comparator.Apart) {p : Comparator}
    (hp : p ∈ st) (hne : p.1 ≠ p.2) {s : List α} {a b : α} (ha : s[p.1]? = some a) (hb : s[p.2]? = some b) :
    (applyStage cx s st)[p.1]? = some (cx a b).1 ∧ (applyStage cx s st)[p.2]? = some (cx a b).2 := by
  induction st generalizing s with
  | nil => cases hp
  | cons q st ih =>
    obtain ⟨hq, hst⟩ := List.pairwise_cons.mp hst
    rw [applyStage_cons]
    rcases List.mem_cons.mp hp with rfl | hp
    · obtain ⟨hlo, -⟩ := List.getElem?_eq_some_iff.mp ha
      obtain ⟨hhi, -⟩ := List.getElem?_eq_some_iff.mp hb
      rw [getElem?_applyStage_other fun q h => ⟨(hq q h).1, (hq q h).2.1⟩,
        getElem?_applyStage_other fun q h => ⟨(hq q h).2.2.1, (hq q h).2.2.2⟩, compareAt_eq ha hb]
      simp [hne.symm, hlo, hhi]
    · obtain ⟨h11, h12, h21, h22⟩ := hq p hp
      exact ih hst hp (by rwa [getElem?_compareAt_other h11.symm h21.symm])
        (by rwa [getElem?_compareAt_other h12.symm h22.symm])

/-! ### The 0-1 principle -/

/-- A map that commutes with the compare-exchange commutes with a network. -/
theorem map_applyNetwork {cx' : β → β → β × β} {f : α → β}
    (hf : ∀ a b, cx' (f a) (f b) = (f (cx a b).1, f (cx a b).2)) (net : Network) (s : List α) :
    (applyNetwork cx net s).map f = applyNetwork cx' net (s.map f) := by
  have hcompare (s : List α) (p : Comparator) : (compareAt cx s p).map f = compareAt cx' (s.map f) p := by
    unfold compareAt
    cases ha : s[p.1]? with
    | none => simp [ha]
    | some a => cases hb : s[p.2]? <;> simp [ha, hb, hf, List.map_set]
  have hstage (st : List Comparator) (s : List α) : (applyStage cx s st).map f = applyStage cx' (s.map f) st := by
    induction st generalizing s with
    | nil => rfl
    | cons p st ih => rw [applyStage_cons, applyStage_cons, ih, hcompare]
  induction net generalizing s with
  | nil => rfl
  | cons st net ih => rw [applyNetwork_cons, applyNetwork_cons, ih, hstage]

end

/-- The compare-exchange of two bits. -/
def cmpxBit (a b : Bool) : Bool × Bool := (a && b, a || b)

/-- Whether the key of an element is above a threshold. -/
def keyAbove (c : Config) (t : Int) (x : Elem) : Bool := decide (t < key c x)

theorem cmpxBit_of_imp {a b : Bool} (h : a = true → b = true) : cmpxBit a b = (a, b) := by
  cases a <;> simp_all [cmpxBit]

theorem cmpxBit_comm (a b : Bool) : cmpxBit a b = cmpxBit b a := by
  simp [cmpxBit, Bool.and_comm, Bool.or_comm]

/-- A threshold turns the compare-exchange of elements into that of bits. -/
theorem cmpxBit_keyAbove (c : Config) (t : Int) (a b : Elem) :
    cmpxBit (keyAbove c t a) (keyAbove c t b) = (keyAbove c t (cmpx c a b).1, keyAbove c t (cmpx c a b).2) := by
  have himp {x y : Elem} (h : elemLe c x y) : keyAbove c t x = true → keyAbove c t y = true := by
    simpa [keyAbove] using fun ht => lt_of_lt_of_le ht h
  by_cases h : elemLe c a b
  · rw [cmpx_of_le h, cmpxBit_of_imp (himp h)]
  · rw [cmpx_of_not_le h, cmpxBit_comm, cmpxBit_of_imp (himp (le_of_not_ge h))]

/-- A sequence is ascending when, for every threshold, the bits of its elements above it are. -/
theorem ascending_of_keyAbove {c : Config} {l : List Elem}
    (h : ∀ t, (l.map (keyAbove c t)).IsChain fun a b => a = true → b = true) : Ascending c l := by
  rw [Ascending, List.isChain_iff_getElem]
  intro i hi
  have hlast := h (key c l[i + 1])
  rw [List.isChain_map, List.isChain_iff_getElem] at hlast
  simpa [keyAbove] using hlast i hi

/-- The 0-1 principle: a network sorts every sequence of a length when it sorts every sequence of bits of that
length. -/
theorem ascending_applyNetwork {c : Config} {net : Network} {l : List Elem}
    (h : ∀ b : List Bool, b.length = l.length →
      (applyNetwork cmpxBit net b).IsChain fun x y => x = true → y = true) :
    Ascending c (applyNetwork (cmpx c) net l) := by
  refine ascending_of_keyAbove fun t => ?_
  rw [map_applyNetwork (cmpxBit_keyAbove c t)]
  exact h _ (List.length_map _)

/-! ### Rearrangement -/

/-- Comparators rearrange elements (rule R10). -/
theorem compareAt_cmpx_perm (c : Config) (s : List Elem) (p : Comparator) : (compareAt (cmpx c) s p).Perm s := by
  unfold compareAt
  split
  · next a b ha hb =>
    obtain ⟨hlo, rfl⟩ := List.getElem?_eq_some_iff.mp ha
    obtain ⟨hhi, rfl⟩ := List.getElem?_eq_some_iff.mp hb
    by_cases h : elemLe c s[p.1] s[p.2]
    · simp [cmpx_of_le h]
    · rw [cmpx_of_not_le h]
      exact List.set_set_perm hlo hhi
  · exact .refl s

theorem applyNetwork_cmpx_perm (c : Config) (net : Network) (s : List Elem) :
    (applyNetwork (cmpx c) net s).Perm s :=
  applyNetwork_keeps (fun t => t.Perm s) _ (fun t p ht => (compareAt_cmpx_perm c t p).trans ht) net s (.refl s)

end Sys2Proof.Machine
end

section
/-! NET_SORT(W) sorts (rules R101 and R102): each phase is a merger, which sorts the bitonic blocks that the phase
before it leaves; hence INTRASORT. -/

namespace Sys2Proof.Machine

/-! ### Positions: a pair at distance 2^q differs in bit q -/

section
variable {q a x : Nat}

theorem testBit_add_of_dvd {j : Nat} (ha : 2 ^ j ∣ a) (hx : x < 2 ^ j) : (a + x).testBit j = a.testBit j := by
  obtain ⟨b, rfl⟩ := ha
  rw [Nat.testBit_two_pow_mul_add b hx]
  simp [Nat.testBit_two_pow_mul]

theorem testBit_lower (ha : 2 ^ (q + 1) ∣ a) (hx : x < 2 ^ q) : (a + x).testBit q = false := by
  obtain ⟨b, rfl⟩ := ha
  rw [Nat.testBit_two_pow_mul_add b (by omega), if_pos (by omega), Nat.testBit_lt_two_pow hx]

theorem testBit_upper (ha : 2 ^ (q + 1) ∣ a) (hx : x < 2 ^ q) : (a + 2 ^ q + x).testBit q = true := by
  rw [Nat.add_right_comm, Nat.add_comm, Nat.testBit_two_pow_add_eq, testBit_lower ha hx]
  rfl

/-- Flipping bit q of a position whose bit q is 0 adds 2^q. -/
theorem xor_two_pow_of_testBit {i : Nat} (h : i.testBit q = false) : i ^^^ 2 ^ q = i + 2 ^ q := by
  induction q generalizing i with
  | zero =>
    have hdiv : (i ^^^ 1) / 2 = i / 2 := by simp [Nat.xor_div_two]
    have hmod : (i ^^^ 1) % 2 = (i + 1) % 2 := Nat.xor_mod_two_eq
    simp only [Nat.testBit_zero, decide_eq_false_iff_not] at h
    rw [pow_zero]
    omega
  | succ q ih =>
    have hpow : 2 ^ (q + 1) = 2 * 2 ^ q := Nat.pow_succ'
    have hdiv : (i ^^^ 2 ^ (q + 1)) / 2 = i / 2 + 2 ^ q := by
      rw [Nat.xor_div_two, hpow, Nat.mul_div_cancel_left _ two_pos, ih (by rwa [← Nat.testBit_succ])]
    have hmod : (i ^^^ 2 ^ (q + 1)) % 2 = (i + 2 ^ (q + 1)) % 2 := Nat.xor_mod_two_eq
    omega

/-- The partner of a position at distance 2^q is above it exactly when bit q of the position is 0. -/
theorem lt_xor_two_pow_iff (i q : Nat) : i < i ^^^ 2 ^ q ↔ i.testBit q = false := by
  have hpos : 0 < 2 ^ q := Nat.two_pow_pos q
  cases h : i.testBit q with
  | false => simp [xor_two_pow_of_testBit h]
  | true =>
    have hback : (i ^^^ 2 ^ q) ^^^ 2 ^ q = (i ^^^ 2 ^ q) + 2 ^ q := xor_two_pow_of_testBit (by simp [h])
    rw [Nat.xor_xor_cancel_right] at hback
    simp only [Bool.true_eq_false, iff_false]
    omega

theorem xor_lower (ha : 2 ^ (q + 1) ∣ a) (hx : x < 2 ^ q) : (a + x) ^^^ 2 ^ q = a + 2 ^ q + x := by
  rw [xor_two_pow_of_testBit (testBit_lower ha hx), Nat.add_right_comm]

theorem xor_upper (ha : 2 ^ (q + 1) ∣ a) (hx : x < 2 ^ q) : (a + 2 ^ q + x) ^^^ 2 ^ q = a + x := by
  rw [← xor_lower ha hx, Nat.xor_xor_cancel_right]

theorem testBit_xor_two_pow_of_ne {i k : Nat} (h : q ≠ k) : (i ^^^ 2 ^ q).testBit k = i.testBit k := by
  simp [h]

end

/-! ### The stages of NET_SORT on bits -/

/-- No two comparators of stage(k, j) share a position (rule R101). -/
theorem sortStage_apart (w k j : Nat) : (sortStage w k j).Pairwise Comparator.Apart := by
  refine List.Pairwise.filterMap _ (R := (· ≠ ·)) (fun i i' hne p hp p' hp' => ?_) List.nodup_range
  have hinj : i ^^^ j ≠ i' ^^^ j := fun h => hne (Nat.xor_left_injective h)
  have hcross (u v : Nat) (hu : u < u ^^^ j) (hv : v < v ^^^ j) : u ≠ v ^^^ j := by
    rintro rfl
    rw [Nat.xor_xor_cancel_right] at hu
    omega
  simp only [Option.ite_none_right_eq_some, Option.some.injEq] at hp hp'
  obtain ⟨hi, rfl⟩ := hp
  obtain ⟨hi', rfl⟩ := hp'
  have h1 := hcross i i' hi hi'
  have h2 := hcross i' i hi' hi
  unfold Comparator.Apart
  split <;> split <;> simp [hne, hinj, h1, h2.symm]

/-- stage(2^k, 2^q) holds the comparator of each lower position, turned round where bit k is 1 (rule R101). -/
theorem mem_sortStage {w k q i : Nat} (hi : i < w) (hq : i.testBit q = false) :
    (if i.testBit k then (i ^^^ 2 ^ q, i) else (i, i ^^^ 2 ^ q)) ∈ sortStage w (2 ^ k) (2 ^ q) := by
  refine List.mem_filterMap.mpr ⟨i, List.mem_range.mpr hi, ?_⟩
  rw [if_pos ((lt_xor_two_pow_iff i q).mpr hq), Nat.and_two_pow]
  cases i.testBit k <;> simp

/-- The bits of a list by position, 0 beyond its end. -/
def bits (b : List Bool) (i : Nat) : Bool := b.getD i false

/-- Bits by position, complemented where bit k of the position is 1: the blocks that the phase of 2^k leaves in
descending order (rule R101) are ascending in this view. -/
def ascView (k : Nat) (v : Nat → Bool) (i : Nat) : Bool := v i ^^ i.testBit k

/-- All compare-exchanges at distance 2^q, ascending. -/
def halfClean (q : Nat) (v : Nat → Bool) (i : Nat) : Bool :=
  if i.testBit q then v i || v (i ^^^ 2 ^ q) else v i && v (i ^^^ 2 ^ q)

/-- Compare-exchanges at the distances 2^(q-1), ..., 2, 1, ascending. -/
def mergeBits (q : Nat) (v : Nat → Bool) : Nat → Bool :=
  match q with
  | 0 => v
  | q + 1 => mergeBits q (halfClean q v)

theorem getElem?_eq_bits {b : List Bool} {i : Nat} (h : i < b.length) : b[i]? = some (bits b i) := by
  simp [bits, h]

theorem bits_of_getElem? {b : List Bool} {i : Nat} {x : Bool} (h : b[i]? = some x) : bits b i = x := by
  simp [bits, h]

section
variable {n k q : Nat} {b : List Bool}

/-- What a stage makes of a lower position and its partner. -/
theorem ascView_applyStage_lower (hb : b.length = 2 ^ n) (hqk : q < k) (hkn : k ≤ n) {i : Nat} (hi : i < 2 ^ n)
    (hlow : i.testBit q = false) :
    ascView k (bits (applyStage cmpxBit b (sortStage (2 ^ n) (2 ^ k) (2 ^ q)))) i =
        (ascView k (bits b) i && ascView k (bits b) (i ^^^ 2 ^ q)) ∧
      ascView k (bits (applyStage cmpxBit b (sortStage (2 ^ n) (2 ^ k) (2 ^ q)))) (i ^^^ 2 ^ q) =
        (ascView k (bits b) i || ascView k (bits b) (i ^^^ 2 ^ q)) := by
  have hpartner : i ^^^ 2 ^ q < 2 ^ n := Nat.xor_lt_two_pow hi (Nat.pow_lt_pow_right (by omega) (by omega))
  have hlt := (lt_xor_two_pow_iff i q).mpr hlow
  have hmem := mem_sortStage (k := k) hi hlow
  have ha := getElem?_eq_bits (hb ▸ hi)
  have hb := getElem?_eq_bits (hb ▸ hpartner)
  unfold ascView
  rw [testBit_xor_two_pow_of_ne (Nat.ne_of_lt hqk)]
  cases hk : i.testBit k with
  | false =>
    rw [hk, if_neg Bool.false_ne_true] at hmem
    obtain ⟨hlo, hhi⟩ := getElem?_applyStage (cx := cmpxBit) (sortStage_apart _ _ _) hmem hlt.ne ha hb
    rw [bits_of_getElem? hlo, bits_of_getElem? hhi]
    simp [cmpxBit]
  | true =>
    rw [hk, if_pos rfl] at hmem
    obtain ⟨hlo, hhi⟩ := getElem?_applyStage (cx := cmpxBit) (sortStage_apart _ _ _) hmem hlt.ne' hb ha
    rw [bits_of_getElem? hlo, bits_of_getElem? hhi]
    simp [cmpxBit, Bool.or_comm, Bool.and_comm]

/-- In the ascending view, stage(2^k, 2^q) is a half-cleaner. -/
theorem ascView_applyStage (hb : b.length = 2 ^ n) (hqk : q < k) (hkn : k ≤ n) :
    ascView k (bits (applyStage cmpxBit b (sortStage (2 ^ n) (2 ^ k) (2 ^ q)))) =
      halfClean q (ascView k (bits b)) := by
  funext i
  have hpow : 2 ^ q < 2 ^ n := Nat.pow_lt_pow_right (by omega) (by omega)
  unfold halfClean
  by_cases hi : i < 2 ^ n
  · cases hlow : i.testBit q with
    | false => exact (ascView_applyStage_lower hb hqk hkn hi hlow).1
    | true =>
      have h := (ascView_applyStage_lower hb hqk hkn (Nat.xor_lt_two_pow hi hpow) (by simp [hlow])).2
      rw [Nat.xor_xor_cancel_right] at h
      rw [h, if_pos rfl, Bool.or_comm]
  · have hpartner : ¬ i ^^^ 2 ^ q < 2 ^ n := fun h => hi (by simpa using Nat.xor_lt_two_pow h hpow)
    have hout {l : List Bool} {m : Nat} (hl : l.length = 2 ^ n) (hm : ¬ m < 2 ^ n) : bits l m = false := by
      simp [bits, hl, not_lt.mp hm]
    simp [ascView, hout hb, hout (length_applyStage _ _ _ ▸ hb), hi, hpartner, Nat.ne_of_lt hqk]

/-- In the ascending view, the stages at the distances 2^(m-1), ..., 1 of the phase of 2^k are a merger. -/
theorem ascView_applyNetwork (hb : b.length = 2 ^ n) {m : Nat} (hmk : m ≤ k) (hkn : k ≤ n) :
    ascView k (bits (applyNetwork cmpxBit
        ((List.range m).map fun r => sortStage (2 ^ n) (2 ^ k) (2 ^ (m - 1 - r))) b)) =
      mergeBits m (ascView k (bits b)) := by
  induction m generalizing b with
  | zero => rfl
  | succ m ih =>
    have hshift (r : Nat) : m + 1 - 1 - (r + 1) = m - 1 - r := by omega
    rw [List.range_succ_eq_map, List.map_cons, List.map_map, applyNetwork_cons]
    simp only [Function.comp_def, Nat.succ_eq_add_one, hshift]
    rw [ih (by simpa using hb) (by omega), mergeBits, ← ascView_applyStage hb (by omega) hkn]
    rfl

end

/-! ### A merger sorts bitonic bits -/

/-- The `m` bits from position `a` on are ascending. -/
def AscendingBits (v : Nat → Bool) (a m : Nat) : Prop :=
  ∀ x y, x ≤ y → y < m → v (a + x) = true → v (a + y) = true

/-- Four bits that alternate: 0101 or 1010. -/
abbrev Alternating (w x y z : Bool) : Prop := w = y ∧ x = z ∧ w ≠ x

/-- No four of the `m` bits from position `a` on alternate: the bits change at most twice when read round. -/
def Bitonic (v : Nat → Bool) (a m : Nat) : Prop :=
  ∀ w x y z, w < x → x < y → y < z → z < m →
    ¬ Alternating (v (a + w)) (v (a + x)) (v (a + y)) (v (a + z))

section
variable {v : Nat → Bool} {q a : Nat}

theorem halfClean_lower (ha : 2 ^ (q + 1) ∣ a) {x : Nat} (hx : x < 2 ^ q) :
    halfClean q v (a + x) = (v (a + x) && v (a + 2 ^ q + x)) := by
  simp [halfClean, testBit_lower ha hx, xor_lower ha hx]

theorem halfClean_upper (ha : 2 ^ (q + 1) ∣ a) {x : Nat} (hx : x < 2 ^ q) :
    halfClean q v (a + 2 ^ q + x) = (v (a + x) || v (a + 2 ^ q + x)) := by
  simp [halfClean, testBit_upper ha hx, xor_upper ha hx, Bool.or_comm]

/-- Four bits and the four that stand half a block later: when no four of the eight alternate, neither do their
conjunctions nor their disjunctions. -/
theorem not_alternating_halves (w x y z w' x' y' z' : Bool)
    (h1 : ¬ Alternating w x y z) (h2 : ¬ Alternating w x y' z')
    (h3 : ¬ Alternating x y z w') (h4 : ¬ Alternating y z w' x') (h5 : ¬ Alternating w' x' y' z') :
    ¬ Alternating (w && w') (x && x') (y && y') (z && z') ∧
      ¬ Alternating (w || w') (x || x') (y || y') (z || z') := by
  grind

/-- A half-cleaner leaves both halves of a bitonic block bitonic. -/
theorem Bitonic.bitonic_halfClean (h : Bitonic v a (2 ^ (q + 1))) (ha : 2 ^ (q + 1) ∣ a) :
    Bitonic (halfClean q v) a (2 ^ q) ∧ Bitonic (halfClean q v) (a + 2 ^ q) (2 ^ q) := by
  have hhalves (w x y z : Nat) (hwx : w < x) (hxy : x < y) (hyz : y < z) (hz : z < 2 ^ q) :=
    not_alternating_halves (v (a + w)) (v (a + x)) (v (a + y)) (v (a + z))
      (v (a + (2 ^ q + w))) (v (a + (2 ^ q + x))) (v (a + (2 ^ q + y))) (v (a + (2 ^ q + z)))
      (by apply h <;> omega) (by apply h <;> omega) (by apply h <;> omega) (by apply h <;> omega)
      (by apply h <;> omega)
  constructor
  · intro w x y z hwx hxy hyz hz
    rw [halfClean_lower ha (by omega), halfClean_lower ha (by omega), halfClean_lower ha (by omega),
      halfClean_lower ha hz]
    simpa only [Nat.add_assoc] using (hhalves w x y z hwx hxy hyz hz).1
  · intro w x y z hwx hxy hyz hz
    rw [halfClean_upper ha (by omega), halfClean_upper ha (by omega), halfClean_upper ha (by omega),
      halfClean_upper ha hz]
    simpa only [Nat.add_assoc] using (hhalves w x y z hwx hxy hyz hz).2

/-- A half-cleaner leaves one half of a bitonic block clean: the lower one all 0 or the upper one all 1. -/
theorem Bitonic.clean_halfClean (h : Bitonic v a (2 ^ (q + 1))) (ha : 2 ^ (q + 1) ∣ a) :
    (∀ x < 2 ^ q, halfClean q v (a + x) = false) ∨ ∀ y < 2 ^ q, halfClean q v (a + 2 ^ q + y) = true := by
  by_contra hnot
  push Not at hnot
  obtain ⟨⟨x, hx, hxv⟩, ⟨y, hy, hyv⟩⟩ := hnot
  rw [halfClean_lower ha hx, Nat.add_assoc, Bool.ne_false_iff, Bool.and_eq_true] at hxv
  rw [halfClean_upper ha hy, Nat.add_assoc, ne_eq, Bool.not_eq_true, Bool.or_eq_false_iff] at hyv
  obtain ⟨hx0, hx1⟩ := hxv
  obtain ⟨hy0, hy1⟩ := hyv
  rcases lt_trichotomy x y with hlt | rfl | hlt
  · exact h x y (2 ^ q + x) (2 ^ q + y) hlt (by omega) (by omega) (by omega)
      (by simp [Alternating, hx0, hx1, hy0, hy1])
  · simp [hx0] at hy0
  · exact h y x (2 ^ q + y) (2 ^ q + x) hlt (by omega) (by omega) (by omega)
      (by simp [Alternating, hx0, hx1, hy0, hy1])

/-- A merger leaves a clean block as it is. -/
theorem mergeBits_clean {e : Bool} (ha : 2 ^ q ∣ a) (h : ∀ x < 2 ^ q, v (a + x) = e) :
    ∀ x < 2 ^ q, mergeBits q v (a + x) = e := by
  induction q generalizing v a with
  | zero => exact h
  | succ q ih =>
    have hlow : 2 ^ q ∣ a := (pow_dvd_pow 2 q.le_succ).trans ha
    have hlower (x : Nat) (hx : x < 2 ^ q) : v (a + x) = e := h x (by omega)
    have hupper (x : Nat) (hx : x < 2 ^ q) : v (a + 2 ^ q + x) = e := Nat.add_assoc a _ x ▸ h _ (by omega)
    intro x hx
    rcases Nat.lt_or_ge x (2 ^ q) with hlt | hge
    · exact ih hlow (fun y hy => by simp [halfClean_lower ha hy, hlower y hy, hupper y hy]) x hlt
    · obtain ⟨y, rfl⟩ := Nat.exists_eq_add_of_le hge
      rw [← Nat.add_assoc]
      exact ih (hlow.add (dvd_refl _)) (fun y hy => by simp [halfClean_upper ha hy, hlower y hy, hupper y hy]) y
        (by omega)

/-- Two ascending halves are one ascending block when the lower is all 0 or the upper all 1. -/
theorem AscendingBits.append {m : Nat} (hlo : AscendingBits v a m) (hhi : AscendingBits v (a + m) m)
    (h : (∀ x < m, v (a + x) = false) ∨ ∀ y < m, v (a + m + y) = true) : AscendingBits v a (m + m) := by
  intro x y hxy hy hv
  rcases Nat.lt_or_ge y m with hym | hym
  · exact hlo x y hxy hym hv
  obtain ⟨y, rfl⟩ := Nat.exists_eq_add_of_le hym
  rw [← Nat.add_assoc]
  rcases Nat.lt_or_ge x m with hxm | hxm
  · rcases h with h | h
    · simp [h x hxm] at hv
    · exact h y (by omega)
  · obtain ⟨x, rfl⟩ := Nat.exists_eq_add_of_le hxm
    exact hhi x y (by omega) (by omega) (by rwa [Nat.add_assoc])

/-- A merger sorts every bitonic block (rule R104). -/
theorem Bitonic.ascending_mergeBits (h : Bitonic v a (2 ^ q)) (ha : 2 ^ q ∣ a) :
    AscendingBits (mergeBits q v) a (2 ^ q) := by
  induction q generalizing v a with
  | zero =>
    intro x y hxy hy
    rw [show x = y by omega]
    exact id
  | succ q ih =>
    have hlow : 2 ^ q ∣ a := (pow_dvd_pow 2 q.le_succ).trans ha
    have hupp : 2 ^ q ∣ a + 2 ^ q := hlow.add (dvd_refl _)
    obtain ⟨hlo, hhi⟩ := h.bitonic_halfClean ha
    rw [Nat.pow_succ', Nat.two_mul]
    exact (ih hlo hlow).append (ih hhi hupp)
      ((h.clean_halfClean ha).imp (mergeBits_clean hlow) (mergeBits_clean hupp))

end

/-! ### The phases of NET_SORT -/

/-- Blocks ascending in the view of one phase, read in the view of the next, are two to a bitonic block. -/
theorem bitonic_of_ascending {v : Nat → Bool} {p : Nat}
    (h : ∀ a, 2 ^ p ∣ a → AscendingBits (ascView p v) a (2 ^ p)) {a : Nat} (ha : 2 ^ (p + 1) ∣ a) :
    Bitonic (ascView (p + 1) v) a (2 ^ (p + 1)) := by
  have hlow : 2 ^ p ∣ a := (pow_dvd_pow 2 p.le_succ).trans ha
  have hup (x y : Nat) (hxy : x ≤ y) (hy : y < 2 ^ p) : v (a + x) = true → v (a + y) = true := by
    simpa [ascView, testBit_lower ha hy, testBit_lower ha (hxy.trans_lt hy)] using h a hlow x y hxy hy
  have hdown (x y : Nat) (hx : 2 ^ p ≤ x) (hxy : x ≤ y) (hy : y < 2 ^ (p + 1)) :
      v (a + x) = false → v (a + y) = false := by
    obtain ⟨x, rfl⟩ := Nat.exists_eq_add_of_le hx
    obtain ⟨y, rfl⟩ := Nat.exists_eq_add_of_le (hx.trans hxy)
    have hy' : y < 2 ^ p := by omega
    have hx' : x < 2 ^ p := by omega
    have hasc := h _ (hlow.add (dvd_refl _)) x y (by omega) hy'
    simp only [ascView, testBit_upper ha hx', testBit_upper ha hy'] at hasc
    simpa [Nat.add_assoc] using hasc
  rintro w x y z hwx hxy hyz hz ⟨hwy, hxz, hne⟩
  simp only [ascView, testBit_add_of_dvd ha (show w < 2 ^ (p + 1) by omega),
    testBit_add_of_dvd ha (show x < 2 ^ (p + 1) by omega), testBit_add_of_dvd ha (show y < 2 ^ (p + 1) by omega),
    testBit_add_of_dvd ha hz, Bool.xor_left_inj, ne_eq] at hwy hxz hne
  cases hx : v (a + x) with
  | false =>
    have hw : v (a + w) = true := by simpa [hx] using hne
    have hxp : 2 ^ p ≤ x := by
      by_contra hlt
      exact absurd (hup w x hwx.le (by omega) hw) (by simp [hx])
    exact absurd (hdown x y hxp hxy.le (by omega) hx) (by simp [← hwy, hw])
  | true =>
    have hy : v (a + y) = false := by simpa [hx, hwy] using hne
    have hyp : 2 ^ p ≤ y := by
      by_contra hlt
      exact absurd (hup x y hxy.le (by omega) hx) (by simp [hy])
    exact absurd (hdown y z hyp hyz.le hz hy) (by simp [← hxz, hx])

/-- After the phases of 2, 4, ..., 2^p every block of 2^p bits is sorted, in the direction of its position. -/
theorem ascending_phases {n p : Nat} (hp : p ≤ n) {b : List Bool} (hb : b.length = 2 ^ n) :
    ∀ a, 2 ^ p ∣ a → AscendingBits
      (ascView p (bits (applyNetwork cmpxBit ((List.range p).flatMap (sortPhase (2 ^ n))) b))) a (2 ^ p) := by
  induction p with
  | zero =>
    intro a _ x y hxy hy
    rw [show x = y by omega]
    exact id
  | succ p ih =>
    intro a ha
    rw [List.range_succ, List.flatMap_append, List.flatMap_singleton, applyNetwork_append, sortPhase]
    have hmerge := ascView_applyNetwork (k := p + 1) (m := p + 1)
      (b := applyNetwork cmpxBit ((List.range p).flatMap (sortPhase (2 ^ n))) b) (by simpa using hb) le_rfl hp
    rw [Nat.add_sub_cancel] at hmerge
    rw [hmerge]
    exact (bitonic_of_ascending (ih (by omega)) ha).ascending_mergeBits ha

/-- NET_SORT(2^n) sorts bits. -/
theorem isChain_sortNetwork {n : Nat} {b : List Bool} (hb : b.length = 2 ^ n) :
    (applyNetwork cmpxBit (sortNetwork n) b).IsChain fun x y => x = true → y = true := by
  rw [List.isChain_iff_getElem]
  intro i hi
  have hlt : i + 1 < 2 ^ n := by simpa [hb] using hi
  have h := ascending_phases le_rfl hb 0 (dvd_zero _) i (i + 1) (by omega) hlt
  have hlt' := Nat.lt_of_succ_lt hlt
  simpa [ascView, bits, hb, hlt, hlt', Nat.testBit_lt_two_pow hlt, Nat.testBit_lt_two_pow hlt', sortNetwork] using h

/-- NET_SORT(W) makes of W elements their ascending arrangement (rule R102). -/
theorem isSortedOf_sortLanes {c : Config} {l : List Elem} (hl : l.length = c.w) : IsSortedOf c (sortLanes c l) l :=
  ⟨applyNetwork_cmpx_perm c _ l,
    ascending_applyNetwork fun _ hb => isChain_sortNetwork (hb.trans (hl.trans c.w_eq_two_pow))⟩

/-! ### INTRASORT -/

/-- A register written with W lanes reads as those lanes (rule R23). -/
theorem State.lanes_writeReg_same (s : State) (r : RegNum) {l : List Elem} (hl : l.length = s.cfg.w) :
    (s.writeReg r l).lanes r = l := by
  rw [State.lanes_of_length _ _ (by simpa using hl), State.reg_writeReg_same]

/-- Settles O41: the effect of INTRASORT writes NET_SORT of the source, which holds W elements. -/
theorem intraSortSorts : Obligations.IntraSortSorts := by
  intro s vd vs hvalid
  have hlanes : (s.writeReg vd (sortLanes s.cfg (s.lanes vs))).count.lanes vd = sortLanes s.cfg (s.lanes vs) :=
    s.lanes_writeReg_same vd (by simp)
  refine ⟨_, exec_of_effect (i := .intraSort vd vs) ⟨hvalid, rfl⟩, by simp [State.valid_eq], ?_, fun r hr => ?_,
    fun _ => rfl, rfl, ⟨rfl, rfl, rfl, rfl⟩, rfl, rfl, rfl⟩
  · rw [hlanes]
    exact isSortedOf_sortLanes (s.length_lanes vs)
  · exact s.reg_writeReg_other vd r _ (List.ne_of_not_mem_cons hr)

end Sys2Proof.Machine
end

section
/-! The frame of a command (rules R24, R46, R92, R135): the registers it may write, and what it leaves unchanged
whether it completes or faults. -/

namespace Sys2Proof.Machine

/-! ### Registers and memory -/

/-- Every register keeps its lanes and its valid bit, or is one of those named and is valid. -/
def WritesOnly (named : List RegNum) (s u : State) : Prop :=
  ∀ r, u.reg r = s.reg r ∨ r ∈ named ∧ u.valid r = true

theorem WritesOnly.sameRegsExcept {named : List RegNum} {s u : State} (h : WritesOnly named s u) :
    SameRegsExcept named s u := fun r hr => (h r).resolve_right fun hw => hr hw.1

theorem WritesOnly.valid {named : List RegNum} {s u : State} (h : WritesOnly named s u) {r : RegNum}
    (hr : s.valid r = true) : u.valid r = true := by
  rcases h r with hsame | ⟨-, hvalid⟩
  · rwa [State.valid_eq, hsame]
  · exact hvalid

theorem writesOnly_of_regs {named : List RegNum} {s u : State} (h : u.regs = s.regs) : WritesOnly named s u :=
  fun _ => .inl (by simp only [State.reg, h])

theorem writesOnly_writeReg (s : State) (r : RegNum) (l : List Elem) : WritesOnly [r] s (s.writeReg r l) := by
  intro q
  rw [State.valid_eq, State.reg_writeReg]
  by_cases h : q = r <;> simp [h]

theorem writesOnly_writePair (s : State) (va vb : RegNum) (p : List Elem × List Elem) :
    WritesOnly [va, vb] s (s.writePair va vb p) := by
  intro q
  rw [State.valid_eq, State.reg_writePair]
  by_cases hb : q = vb
  · simp [hb]
  · rw [if_neg hb]
    by_cases ha : q = va <;> simp [ha]

theorem mem_blockRegs {c : Config} {r : RegNum} : r ∈ blockRegs c ↔ r.val < c.w := by simp [blockRegs]

theorem writesOnly_writeBlockRegs (s : State) (rows : List (List Elem)) :
    WritesOnly (blockRegs s.cfg) s (s.writeBlockRegs rows) := by
  intro q
  rw [State.valid_eq, State.reg_writeBlockRegs, mem_blockRegs]
  by_cases h : q.val < s.cfg.w <;> simp [h]

/-- The registers a command writes (rule R24). -/
def targets (c : Config) (i : Instr) : List RegNum :=
  match i with
  | .loadReg vd _ => [vd]
  | .storeReg _ _ => []
  | .minMax va vb => [va, vb]
  | .maskedMinMax va vb _ => [va, vb]
  | .reverse vd _ => [vd]
  | .transpose => blockRegs c
  | .intraSort vd _ => [vd]
  | .intraSort2 va vb => [va, vb]
  | .maskedIntraSort2 va vb => [va, vb]
  | .bitonicMerge va vb => [va, vb]
  | .sortBlock _ => blockRegs c

/-- Whether a command writes memory (rule R46). -/
def stores (i : Instr) : Bool :=
  match i with
  | .storeReg _ _ => true
  | .sortBlock _ => true
  | _ => false

section
variable {i : Instr} {s t u : State}

theorem Effect.writesOnly (he : Effect i s u) : WritesOnly (targets s.cfg i) s u := by
  cases i with
  | loadReg | reverse | intraSort =>
    obtain ⟨-, rfl⟩ := he
    exact writesOnly_writeReg _ _ _
  | storeReg =>
    obtain ⟨-, -, rfl⟩ := he
    exact writesOnly_of_regs rfl
  | minMax | intraSort2 | maskedIntraSort2 | bitonicMerge =>
    obtain ⟨-, -, -, rfl⟩ := he
    exact writesOnly_writePair _ _ _ _
  | maskedMinMax =>
    obtain ⟨-, -, -, -, rfl⟩ := he
    exact writesOnly_writePair _ _ _ _
  | transpose =>
    obtain ⟨-, rfl⟩ := he
    exact writesOnly_writeBlockRegs _ _
  | sortBlock =>
    obtain ⟨-, -, -, rfl⟩ := he
    exact writesOnly_writeBlockRegs (s.setMem _) _

/-- The effect of a command is on registers and memory only. -/
theorem Effect.eq_with (he : Effect i s u) : ∃ regs mem, u = { s with regs := regs, mem := mem } := by
  cases i with
  | loadReg | reverse | transpose | intraSort =>
    obtain ⟨-, rfl⟩ := he
    exact ⟨_, _, rfl⟩
  | storeReg =>
    obtain ⟨-, -, rfl⟩ := he
    exact ⟨_, _, rfl⟩
  | minMax | intraSort2 | maskedIntraSort2 | bitonicMerge =>
    obtain ⟨-, -, -, rfl⟩ := he
    exact ⟨_, _, rfl⟩
  | maskedMinMax =>
    obtain ⟨-, -, -, -, rfl⟩ := he
    exact ⟨_, _, rfl⟩
  | sortBlock =>
    obtain ⟨-, -, -, rfl⟩ := he
    exact ⟨_, _, rfl⟩

/-- The nine commands that store nothing leave memory as it is (rule R46). -/
theorem Effect.mem_eq (he : Effect i s u) (hi : stores i = false) : u.mem = s.mem := by
  cases i with
  | loadReg | reverse | transpose | intraSort =>
    obtain ⟨-, rfl⟩ := he
    rfl
  | minMax | intraSort2 | maskedIntraSort2 | bitonicMerge =>
    obtain ⟨-, -, -, rfl⟩ := he
    rfl
  | maskedMinMax =>
    obtain ⟨-, -, -, -, rfl⟩ := he
    rfl
  | storeReg | sortBlock => cases hi

/-- A completed command is counted, and the fault registers and the surroundings keep their values (rule R92). -/
theorem Effect.countedOnly (he : Effect i s u) : CountedOnly s u.count := by
  obtain ⟨regs, mem, rfl⟩ := he.eq_with
  exact ⟨rfl, ⟨rfl, rfl, rfl, rfl⟩, rfl, rfl, rfl⟩

theorem faultTaken_enterFault (s : State) (f : FaultCause) (w : CmdWord) :
    FaultTaken f.code f.address w s (s.enterFault f w) :=
  ⟨rfl, rfl, rfl, rfl, rfl, rfl, rfl, rfl, rfl, rfl⟩

/-! ### The frame of any command -/

theorem exec_writesOnly (h : exec i s = .next t) : WritesOnly (targets s.cfg i) s t := by
  rcases exec_next h with ⟨f, rfl⟩ | ⟨u, he, rfl⟩
  · exact writesOnly_of_regs rfl
  · exact he.writesOnly

theorem exec_sameSurroundings (h : exec i s = .next t) : SameSurroundings s t := by
  rcases exec_next h with ⟨f, rfl⟩ | ⟨u, he, rfl⟩
  · exact ⟨rfl, rfl, rfl⟩
  · exact he.countedOnly.2.2

/-- The fault registers keep their values, or are those of a fault entry, which changes nothing else (rule R135). -/
theorem exec_faultRegs (h : exec i s = .next t) :
    SameFaultRegs s t ∨ ∃ code addr, FaultTaken code addr (encode i) s t := by
  rcases exec_next h with ⟨f, rfl⟩ | ⟨u, he, rfl⟩
  · exact .inr ⟨_, _, faultTaken_enterFault s f _⟩
  · exact .inl he.countedOnly.2.1

/-- A command that stores nothing leaves all of memory as it is. -/
theorem registerFrame_of_exec (hi : stores i = false) (h : exec i s = .next t) :
    RegisterFrame i (targets s.cfg i) s t := by
  refine ⟨(exec_writesOnly h).sameRegsExcept, fun a => ?_, exec_sameSurroundings h, exec_faultRegs h⟩
  rcases exec_next h with ⟨f, rfl⟩ | ⟨u, he, rfl⟩
  · rfl
  · rw [State.count_mem, he.mem_eq hi]

/-- A command whose effect leaves the bytes outside a range as they are does so when it faults too. -/
theorem storingFrame_of_exec {a n : Nat} (hmem : ∀ u, Effect i s u → SameMemoryOutside a n s u)
    (h : exec i s = .next t) : StoringFrame i (targets s.cfg i) a n s t := by
  refine ⟨(exec_writesOnly h).sameRegsExcept, fun b hb => ?_, exec_sameSurroundings h, exec_faultRegs h⟩
  rcases exec_next h with ⟨f, rfl⟩ | ⟨u, he, rfl⟩
  · rfl
  · exact hmem u he b hb

end

/-- Settles O49: none of the nine commands stores, and what each writes is its list of targets. -/
theorem registerCommandsFrame : Obligations.RegisterCommandsFrame := by
  intro s t
  exact ⟨fun _ _ => registerFrame_of_exec rfl, fun _ _ => registerFrame_of_exec rfl,
    fun _ _ => registerFrame_of_exec rfl, fun _ _ => registerFrame_of_exec rfl,
    fun _ _ _ => registerFrame_of_exec rfl, fun _ _ => registerFrame_of_exec rfl,
    fun _ _ => registerFrame_of_exec rfl, fun _ _ => registerFrame_of_exec rfl, registerFrame_of_exec rfl⟩

/-- Settles O51: the block store reads as before outside the block, and the registers written are V[0] to V[W-1]. -/
theorem sortBlockFrame : Obligations.SortBlockFrame := by
  intro s t addr h
  refine storingFrame_of_exec (fun u he => ?_) h
  obtain ⟨-, rows, -, rfl⟩ := he
  exact fun b hb => storeBlock_read_outside _ _ _ _ _ hb

/-! ### Valid bits -/

theorem takeMove_valid {m : HostMove} {s t : State} (ht : takeMove m s = .next t) (hm : m ≠ .reset) {r : RegNum}
    (hr : s.valid r = true) : t.valid r = true := by
  rcases takeMove_next ht with ⟨w, -, -, hw⟩ | ⟨a, x, -, -, rfl⟩ | ⟨-, -, -, rfl⟩ | ⟨rfl, -⟩
  · rcases runWord_next hw with ⟨-, -, rfl⟩ | ⟨i, -, ⟨f, rfl⟩ | ⟨u, he, rfl⟩⟩
    · exact hr
    · exact hr
    · exact he.writesOnly.valid hr
  · exact hr
  · exact hr
  · exact absurd rfl hm

/-- Settles O18: a command leaves a register as it is or writes it, which makes it valid; the host's other moves but
reset touch no register. -/
theorem onlyResetClearsValidBits : Obligations.OnlyResetClearsValidBits := by
  intro s t ht hhost r hr
  cases hs : s.host with
  | nil =>
    rw [step_idle hs] at ht
    exact Host.Outcome.next.inj ht ▸ hr
  | cons m rest =>
    rw [step_move hs] at ht
    exact takeMove_valid ht (fun hm => hhost rest (hm ▸ hs)) hr

/-! ### TRANSPOSE -/

/-- Settles O40: the rows read are the lanes of V[0] to V[W-1], and row p of their transpose is written to V[p]. -/
theorem transposeExchangesRowsAndColumns : Obligations.TransposeExchangesRowsAndColumns := by
  intro s hvalid
  have he : Effect .transpose s _ := ⟨blockRegsValid_iff.mpr hvalid, rfl⟩
  obtain ⟨hregs, hmem, -, -⟩ := registerFrame_of_exec rfl (exec_of_effect he)
  refine ⟨_, exec_of_effect he, fun p q hp hq => ?_, hregs, hmem, he.countedOnly⟩
  rw [State.valid_eq, State.lane_eq, State.reg_count, State.reg_writeBlockRegs, if_pos hp]
  refine ⟨rfl, ?_⟩
  rw [getD_transposeRows _ _ hp hq, ← s.getD_lanes q p hp]
  simp [hq]

end Sys2Proof.Machine
end

section
/-! Accepted words (rules R67, R92, R170): a word that decodes is the word of its instruction, every accepted word is
counted or faults, and a run that ends well counts its words. -/

namespace Sys2Proof

/-! ### A word that decodes -/

theorem whenUnusedZero_eq_ok {b : Bool} {i j : Instr} (h : whenUnusedZero b i = .ok j) : b = true ∧ i = j := by
  unfold whenUnusedZero at h
  split at h
  · next hb => exact ⟨hb, Except.ok.inj h⟩
  · cases h

theorem checkOperands_eq_ok {c : Config} {i j : Instr} (h : checkOperands c i = .ok j) : i = j ∧ i.wf c = true := by
  unfold checkOperands at h
  split at h
  · cases h
  · next hdistinct =>
    split at h
    · cases h
    · next hpattern => exact ⟨Except.ok.inj h, by simp_all [Instr.wf]⟩

/-- The fields a format does not use are zero, so the word is built from the instruction's operands (rule R62). -/
theorem encode_of_decodeFields {op : BitVec 8} {ra rb : RegNum} {pat : PatNum} {addr : Word} {i : Instr}
    (h : decodeFields op ra rb pat addr = .ok i) : encode i = wordOf op ra rb pat addr := by
  have hop : BitVec.ofNat 8 op.toNat = op := by simp
  unfold decodeFields at h
  split at h
  case h_12 => cases h
  all_goals
    next hcode =>
      obtain ⟨hzero, rfl⟩ := whenUnusedZero_eq_ok h
      simp only [Bool.and_eq_true, beq_iff_eq] at hzero
      rw [← hop, hcode]
      simp [encode, hzero]

/-- A word that decodes is the word of the instruction it decodes to, which is well-formed (rules R62 and R67). -/
theorem encode_eq_and_wf_of_decode {c : Config} {w : CmdWord} {i : Instr} (h : decode c w = .ok i) :
    encode i = w ∧ i.wf c = true := by
  unfold decode at h
  split at h
  · cases h
  · next hzero =>
    split at h
    · cases h
    · next j hj =>
      obtain ⟨rfl, hwf⟩ := checkOperands_eq_ok h
      exact ⟨(encode_of_decodeFields hj).trans (wordOf_fields w (not_not.mp hzero)), hwf⟩

end Sys2Proof

namespace Sys2Proof.Machine

/-! ### One word -/

/-- Every instruction has a next state (rule R92). -/
theorem exec_exists_next (i : Instr) (s : State) : ∃ t, exec i s = .next t := by
  obtain ⟨e, he, -⟩ := exec_spec i s
  cases e with
  | error f => exact ⟨_, he⟩
  | ok u => exact ⟨_, he⟩

theorem runWord_exists_next (w : CmdWord) (s : State) : ∃ t, runWord w s = .next t := by
  unfold runWord
  split
  · exact ⟨_, rfl⟩
  · exact exec_exists_next _ s

/-- An accepted word faults with the word itself recorded, or completes and is counted. -/
theorem runWord_next_cases {w : CmdWord} {s t : State} (h : runWord w s = .next t) :
    (∃ code addr, FaultTaken code addr w s t) ∨ CountedOnly s t := by
  rcases runWord_next h with ⟨-, -, rfl⟩ | ⟨i, hi, ⟨f, rfl⟩ | ⟨u, he, rfl⟩⟩
  · exact .inl ⟨_, _, faultTaken_enterFault s .illegal w⟩
  · rw [(encode_eq_and_wf_of_decode hi).1]
    exact .inl ⟨_, _, faultTaken_enterFault s f w⟩
  · exact .inr he.countedOnly

section
variable {s : State} {w : CmdWord} {rest : List HostMove}

theorem step_command (hs : s.host = .command w :: rest) (hf : s.fault = false) :
    step s = runWord w (s.popHost rest) := by
  simp [step_move hs, takeMove, acceptWord, hf]

theorem step_command_halted (hs : s.host = .command w :: rest) (hf : s.fault = true) : step s = .refused .halted := by
  simp [step_move hs, takeMove, acceptWord, hf]

/-- The step of an accepted word (rules R27 and R135). -/
theorem step_command_next (hs : s.host = .command w :: rest) (hf : s.fault = false) :
    ∃ t, step s = .next t ∧ t.host = rest ∧
      ((t.fault = false ∧ t.cmdcnt = s.cmdcnt + 1) ∨ (t.fault = true ∧ t.cmdcnt = s.cmdcnt ∧ t.fcmd = w)) := by
  obtain ⟨t, ht⟩ := runWord_exists_next w (s.popHost rest)
  refine ⟨t, (step_command hs hf).trans ht, ?_⟩
  rcases runWord_next_cases ht with ⟨code, addr, hfault, -, -, hcmd, -, -, hcnt, -, hhost, -⟩ |
    ⟨hcnt, ⟨hfault, -, -, -⟩, -, hhost, -⟩
  · exact ⟨hhost, .inr ⟨hfault, hcnt, hcmd⟩⟩
  · exact ⟨hhost, .inl ⟨hfault.trans hf, hcnt⟩⟩

end

/-- Settles O19: an accepted word is run, and running it is counted or takes the fault entry. -/
theorem acceptedCommandCountsOrFaults : Obligations.AcceptedCommandCountsOrFaults := by
  intro s w rest hs hf
  obtain ⟨t, ht, hhost, hcases⟩ := step_command_next hs hf
  refine ⟨t, ht, hhost, hcases.imp_left fun ⟨hfault, hcnt⟩ => ⟨hfault, ?_⟩⟩
  rw [hcnt, BitVec.toNat_add]
  rfl

/-- Settles O6: the word is the next move; taking it gives the original state back. -/
theorem offeredWordIsNext : Obligations.OfferedWordIsNext := by
  intro s w
  have hs : (s.withFetchWord 64 w).host = .command (BitVec.ofNat 64 (w % 2 ^ 64)) :: s.host := rfl
  have hword : BitVec.ofNat 64 (w % 2 ^ 64) = BitVec.ofNat 64 w := by simp [← BitVec.toNat_inj]
  rw [hword] at hs
  exact ⟨step_command hs, step_command_halted hs⟩

/-! ### Runs of words -/

theorem run_succ_of_next {k : Nat} {s t : State} (h : step s = .next t) :
    Host.Core.run core (k + 1) s = Host.Core.run core k t := by
  have hcore : core.step s = .next t := h
  simp [Host.Core.run, hcore]

theorem run_succ_of_refused {k : Nat} {s : State} {r : Refusal} (h : step s = .refused r) :
    Host.Core.run core (k + 1) s = .refused r := by
  have hcore : core.step s = .refused r := h
  simp [Host.Core.run, hcore]

/-- A run that ends well accepts its first word, and the run of the other words, from the state that word leaves, ends
well too. -/
theorem endsWell_cons {w : CmdWord} {ws : List CmdWord} {s t : State} (h : EndsWell (w :: ws) s t) :
    s.fault = false ∧ ∃ u, EndsWell ws u t ∧ (u.fault = false → u.cmdcnt = s.cmdcnt + 1) := by
  obtain ⟨hrun, hfault⟩ := h
  have hhost : (offer (w :: ws) s).host = .command w :: ws.map HostMove.command := rfl
  cases hs : s.fault with
  | true =>
    rw [List.length_cons, run_succ_of_refused (step_command_halted hhost hs)] at hrun
    cases hrun
  | false =>
    obtain ⟨u, hu, hrest, hcases⟩ := step_command_next hhost hs
    rw [List.length_cons, run_succ_of_next hu] at hrun
    have hoffer : offer ws u = u := by rw [offer, ← hrest]
    refine ⟨rfl, u, ⟨hoffer.symm ▸ hrun, hfault⟩, fun huf => ?_⟩
    rcases hcases with ⟨-, hcnt⟩ | ⟨hut, -⟩
    · exact hcnt
    · simp [huf] at hut

theorem endsWell_counts {ws : List CmdWord} {s t : State} (h : EndsWell ws s t) :
    s.fault = false ∧ t.cmdcnt = s.cmdcnt + BitVec.ofNat 32 ws.length := by
  induction ws generalizing s with
  | nil =>
    obtain ⟨hrun, hfault⟩ := h
    cases hrun
    exact ⟨hfault, by simp [offer]⟩
  | cons w ws ih =>
    obtain ⟨hs, u, hu, hcnt⟩ := endsWell_cons h
    obtain ⟨huf, htu⟩ := ih hu
    refine ⟨hs, ?_⟩
    rw [htu, hcnt huf, List.length_cons, BitVec.ofNat_add, BitVec.add_assoc, BitVec.add_comm 1]
    rfl

/-- Settles O24: each word of a run that ends well is accepted and counted, by induction on the words. -/
theorem runEndingWellCountsItsWords : Obligations.RunEndingWellCountsItsWords := by
  intro ws s t h
  rw [(endsWell_counts h).2]
  simp

end Sys2Proof.Machine
end

section
/-! Lanes that nothing has written cannot be observed (rules R22, R160): every check and every operation gives alike
on two states that differ in such lanes only. -/

namespace Sys2Proof.Machine

/-- How the operations of one command on two such states end: with the same fault cause, or in such states. -/
def EffectsAgree (x y : Except FaultCause State) : Prop :=
  match x, y with
  | .ok s, .ok t => SameButUnwritten s t
  | .error f, .error g => f = g
  | _, _ => False

/-- After the same check, operations agree when they agree on whatever the check lets through. -/
theorem EffectsAgree.bind {α : Type} {x : Except FaultCause α} {f g : α → Except FaultCause State}
    (h : ∀ a, EffectsAgree (f a) (g a)) : EffectsAgree (x >>= f) (x >>= g) := by
  cases x with
  | error e => rfl
  | ok a => exact h a

section
variable {s t : State}

/-! ### What the two states share -/

theorem SameButUnwritten.cfg (h : SameButUnwritten s t) : t.cfg = s.cfg := h.1

theorem SameButUnwritten.fault (h : SameButUnwritten s t) : t.fault = s.fault := by
  obtain ⟨-, ⟨hfault, -⟩, -⟩ := h
  exact hfault

theorem SameButUnwritten.mem (h : SameButUnwritten s t) : t.mem = s.mem := by
  obtain ⟨-, -, -, hmem, -⟩ := h
  exact hmem

theorem SameButUnwritten.host (h : SameButUnwritten s t) : t.host = s.host := by
  obtain ⟨-, -, -, -, hhost, -⟩ := h
  exact hhost

theorem SameButUnwritten.regs (h : SameButUnwritten s t) (r : RegNum) :
    t.valid r = s.valid r ∧ (s.valid r = true → t.reg r = s.reg r) := by
  obtain ⟨-, -, -, -, -, -, hregs⟩ := h
  exact hregs r

theorem SameButUnwritten.statusRead (h : SameButUnwritten s t) (off : Nat) : statusRead t off = statusRead s off := by
  obtain ⟨hcfg, ⟨hfault, hcode, haddr, hcmd⟩, hcnt, -, -, -, hregs⟩ := h
  have hstatus : statusWord t = statusWord s := by rw [statusWord, hfault, hcode, statusWord]
  have hvvalid : vvalidWord t = vvalidWord s := by simp only [vvalidWord, hregs]
  have hlo : fcmdLo t = fcmdLo s := by rw [fcmdLo, hcmd, fcmdLo]
  have hhi : fcmdHi t = fcmdHi s := by rw [fcmdHi, hcmd, fcmdHi]
  simp only [Machine.statusRead, hcfg, hstatus, hcnt, hvvalid, haddr, hlo, hhi]

/-! ### Reading registers -/

theorem SameButUnwritten.readReg (h : SameButUnwritten s t) (r : RegNum) : readReg t r = readReg s r := by
  obtain ⟨hvalid, hreg⟩ := h.regs r
  cases hr : s.valid r with
  | false => rw [readReg_invalid hr, readReg_invalid (hvalid.trans hr)]
  | true => rw [readReg_valid hr, readReg_valid (hvalid.trans hr), State.lanes_congr r h.cfg (hreg hr)]

theorem SameButUnwritten.readPair (h : SameButUnwritten s t) (va vb : RegNum) :
    readPair t va vb = readPair s va vb := by
  simp only [Machine.readPair, h.readReg]

theorem SameButUnwritten.blockRegsValid (h : SameButUnwritten s t) : blockRegsValid t = blockRegsValid s := by
  simp only [Machine.blockRegsValid, h.cfg, (h.regs _).1]

theorem SameButUnwritten.readBlockRegs (h : SameButUnwritten s t) : readBlockRegs t = readBlockRegs s := by
  cases hs : Machine.blockRegsValid s with
  | false => rw [readBlockRegs_invalid hs, readBlockRegs_invalid (h.blockRegsValid.trans hs)]
  | true =>
    rw [readBlockRegs_valid hs, readBlockRegs_valid (h.blockRegsValid.trans hs), h.cfg]
    refine congrArg _ (List.map_congr_left fun r hr => ?_)
    have hr16 : r % 16 < s.cfg.w := Nat.lt_of_le_of_lt (Nat.mod_le r 16) (List.mem_range.mp hr)
    exact State.lanes_congr _ h.cfg ((h.regs _).2 (blockRegsValid_iff.mp hs _ hr16))

/-! ### Updates -/


theorem SameButUnwritten.writeReg (h : SameButUnwritten s t) (r : RegNum) (l : List Elem) :
    SameButUnwritten (s.writeReg r l) (t.writeReg r l) := by
  obtain ⟨hcfg, hfault, hcnt, hmem, hhost, hdraws, hregs⟩ := h
  refine ⟨hcfg, hfault, hcnt, hmem, hhost, hdraws, fun q => ?_⟩
  simp only [State.valid_eq, State.reg_writeReg]
  split
  · exact ⟨rfl, fun _ => rfl⟩
  · exact hregs q

theorem SameButUnwritten.writePair (h : SameButUnwritten s t) (va vb : RegNum) (p : List Elem × List Elem) :
    SameButUnwritten (s.writePair va vb p) (t.writePair va vb p) :=
  SameButUnwritten.writeReg (h.writeReg va p.1) vb p.2

theorem SameButUnwritten.writeBlockRegs (h : SameButUnwritten s t) (rows : List (List Elem)) :
    SameButUnwritten (s.writeBlockRegs rows) (t.writeBlockRegs rows) := by
  have hwritten (q : RegNum) : (t.writeBlockRegs rows).valid q = (s.writeBlockRegs rows).valid q ∧
      ((s.writeBlockRegs rows).valid q = true → (t.writeBlockRegs rows).reg q = (s.writeBlockRegs rows).reg q) := by
    simp only [State.valid_eq, State.reg_writeBlockRegs, h.cfg]
    split
    · exact ⟨rfl, fun _ => rfl⟩
    · exact h.regs q
  obtain ⟨hcfg, ⟨hfault, hcode, haddr, hcmd⟩, hcnt, hmem, hhost, hdraws, -⟩ := h
  simpa [SameButUnwritten, SameFaultRegs, hcfg, hfault, hcode, haddr, hcmd, hcnt, hmem, hhost, hdraws, hwritten]
    using fun q => (hwritten q).2

theorem SameButUnwritten.setMem (h : SameButUnwritten s t) (m : Memory) :
    SameButUnwritten (s.setMem m) (t.setMem m) := by
  obtain ⟨hcfg, hfault, hcnt, -, hhost, hdraws, hregs⟩ := h
  exact ⟨hcfg, hfault, hcnt, rfl, hhost, hdraws, hregs⟩

theorem SameButUnwritten.count (h : SameButUnwritten s t) : SameButUnwritten s.count t.count := by
  obtain ⟨hcfg, hfault, hcnt, hmem, hhost, hdraws, hregs⟩ := h
  exact ⟨hcfg, hfault, congrArg (· + 1) hcnt, hmem, hhost, hdraws, hregs⟩

theorem SameButUnwritten.enterFault (h : SameButUnwritten s t) (f : FaultCause) (w : CmdWord) :
    SameButUnwritten (s.enterFault f w) (t.enterFault f w) := by
  obtain ⟨hcfg, -, hcnt, hmem, hhost, hdraws, hregs⟩ := h
  exact ⟨hcfg, ⟨rfl, rfl, rfl, rfl⟩, hcnt, hmem, hhost, hdraws, hregs⟩

theorem SameButUnwritten.popHost (h : SameButUnwritten s t) (rest : List HostMove) :
    SameButUnwritten (s.popHost rest) (t.popHost rest) := by
  obtain ⟨hcfg, hfault, hcnt, hmem, -, hdraws, hregs⟩ := h
  exact ⟨hcfg, hfault, hcnt, hmem, rfl, hdraws, hregs⟩

/-- After reset no register is valid, so that only the fields reset leaves alone count. -/
theorem SameButUnwritten.applyReset (h : SameButUnwritten s t) : SameButUnwritten s.applyReset t.applyReset := by
  obtain ⟨hcfg, -, -, hmem, hhost, hdraws, -⟩ := h
  simp [SameButUnwritten, SameFaultRegs, hcfg, hmem, hhost, hdraws]

/-! ### Commands and steps -/

theorem SameButUnwritten.conclude (h : SameButUnwritten s t) (i : Instr) {x y : Except FaultCause State}
    (hxy : EffectsAgree x y) : OutcomesAgree (conclude i s x) (conclude i t y) := by
  match x, y, hxy with
  | .error f, .error _, rfl => exact h.enterFault f _
  | .ok _, .ok _, huv => exact SameButUnwritten.count huv

/-- The three merge commands. -/
theorem SameButUnwritten.mergePair (h : SameButUnwritten s t) (i : Instr) (va vb : RegNum) :
    OutcomesAgree (mergePair i va vb s) (mergePair i va vb t) := by
  refine h.conclude i ?_
  rw [h.readPair, h.cfg]
  exact .bind fun _ => .bind fun _ => h.writePair va vb _

theorem SameButUnwritten.exec (h : SameButUnwritten s t) (i : Instr) : OutcomesAgree (exec i s) (exec i t) := by
  cases i with
  | loadReg vd addr =>
    refine h.conclude _ ?_
    rw [h.cfg, h.mem]
    exact .bind fun _ => h.writeReg vd _
  | storeReg vs addr =>
    refine h.conclude _ ?_
    rw [h.readReg, h.cfg, h.mem]
    exact .bind fun _ => .bind fun _ => h.setMem _
  | minMax va vb =>
    refine h.conclude _ ?_
    rw [h.readPair, h.cfg]
    exact .bind fun _ => .bind fun _ => h.writePair va vb _
  | maskedMinMax va vb pat =>
    refine h.conclude _ ?_
    rw [h.readPair, h.cfg]
    exact .bind fun _ => .bind fun _ => .bind fun _ => h.writePair va vb _
  | reverse vd vs =>
    refine h.conclude _ ?_
    rw [h.readReg]
    exact .bind fun _ => h.writeReg vd _
  | transpose =>
    refine h.conclude _ ?_
    rw [h.readBlockRegs, h.cfg]
    exact .bind fun _ => h.writeBlockRegs _
  | intraSort vd vs =>
    refine h.conclude _ ?_
    rw [h.readReg, h.cfg]
    exact .bind fun _ => h.writeReg vd _
  | intraSort2 va vb => exact h.mergePair _ va vb
  | maskedIntraSort2 va vb => exact h.mergePair _ va vb
  | bitonicMerge va vb => exact h.mergePair _ va vb
  | sortBlock addr =>
    refine h.conclude _ ?_
    rw [h.cfg, h.mem]
    exact .bind fun _ => (h.setMem _).writeBlockRegs _

theorem SameButUnwritten.runWord (h : SameButUnwritten s t) (w : CmdWord) :
    OutcomesAgree (runWord w s) (runWord w t) := by
  unfold Machine.runWord
  rw [h.cfg]
  cases decode s.cfg w with
  | error e => exact h.enterFault .illegal w
  | ok i => exact h.exec i

theorem SameButUnwritten.takeMove (h : SameButUnwritten s t) (m : HostMove) :
    OutcomesAgree (takeMove m s) (takeMove m t) := by
  cases m with
  | command w =>
    simp only [Machine.takeMove, acceptWord, h.fault]
    split
    · rfl
    · exact h.runWord w
  | writeByte addr x =>
    simp only [Machine.takeMove, State.hostWriteByte, h.cfg, h.mem]
    split
    · exact h.setMem _
    · rfl
  | statusWrite off v => exact h
  | reset => exact h.applyReset

theorem SameButUnwritten.step (h : SameButUnwritten s t) : OutcomesAgree (step s) (step t) := by
  cases hs : s.host with
  | nil =>
    rw [step_idle hs, step_idle (h.host.trans hs)]
    exact h
  | cons m rest =>
    rw [step_move hs, step_move (h.host.trans hs)]
    exact (h.popHost rest).takeMove m

end

/-- Settles O23: no status register shows a lane, and every read of a register passes the valid bit first. -/
theorem unwrittenLanesUnobservable : Obligations.UnwrittenLanesUnobservable :=
  fun _ _ h => ⟨h.statusRead, h.step⟩

end Sys2Proof.Machine
end

section
/-! The status registers (rules R28 to R33): their fields, bit by bit, their values after power-on, and the port. -/

namespace Sys2Proof.Machine

/-! ### Fields of a 32-bit word -/

section
variable {n : Nat} (hn : n < 2 ^ 32)
include hn

/-- The field of `len` bits from bit `start` on, of a word given as a number. -/
theorem toNat_extractLsb'_ofNat (start len : Nat) :
    ((BitVec.ofNat 32 n).extractLsb' start len).toNat = n / 2 ^ start % 2 ^ len := by
  rw [BitVec.extractLsb'_toNat, BitVec.toNat_ofNat, Nat.mod_eq_of_lt hn, Nat.shiftRight_eq_div_pow]

theorem extractLsb'_ofNat_eq {start len : Nat} {x : BitVec len} (h : n / 2 ^ start % 2 ^ len = x.toNat) :
    (BitVec.ofNat 32 n).extractLsb' start len = x :=
  BitVec.eq_of_toNat_eq ((toNat_extractLsb'_ofNat hn start len).trans h)

/-- Bit `i` of a word given as a number. -/
theorem getLsbD_ofNat_eq {i : Nat} {b : Bool} (h : n / 2 ^ i % 2 = b.toNat) : (BitVec.ofNat 32 n).getLsbD i = b := by
  rw [BitVec.getLsbD, BitVec.toNat_ofNat, Nat.mod_eq_of_lt hn, Nat.testBit_eq_decide_div_mod_eq, h]
  cases b <;> rfl

end

/-! ### CFG -/

/-- Settles O13: each summand of CFG fits its field (rule R29). -/
theorem cfgRegisterFields : Obligations.CfgRegisterFields := by
  intro c
  have hcode : etypeCode c.etype < 4 := by cases c.etype <;> decide
  have hwide := c.wide.toNat_le
  have hw := c.w_le
  have hlt : etypeCode c.etype + c.wide.toNat * 2 ^ 2 + c.w * 2 ^ 3 + 16 * 2 ^ 8 < 2 ^ 32 := by omega
  have hfield := toNat_extractLsb'_ofNat hlt
  have hetype : ((cfgWord c).extractLsb' 0 2).toNat = etypeCode c.etype := (hfield 0 2).trans (by omega)
  exact ⟨hetype, getLsbD_ofNat_eq hlt (by omega), (hfield 3 5).trans (by omega), (hfield 8 5).trans (by omega),
    extractLsb'_ofNat_eq hlt (show _ = 0 by omega)⟩

/-! ### VVALID -/

/-- The number with bit r equal to `f r` for r < n. -/
def bitSum (f : Nat → Bool) (n : Nat) : Nat := (List.range n).foldl (fun m r => m + (f r).toNat * 2 ^ r) 0

theorem bitSum_succ (f : Nat → Bool) (n : Nat) : bitSum f (n + 1) = bitSum f n + (f n).toNat * 2 ^ n := by
  simp [bitSum, List.range_succ]

theorem bitSum_lt (f : Nat → Bool) (n : Nat) : bitSum f n < 2 ^ n := by
  induction n with
  | zero => simp [bitSum]
  | succ n ih =>
    have hbit : (f n).toNat * 2 ^ n ≤ 1 * 2 ^ n := Nat.mul_le_mul_right _ (f n).toNat_le
    rw [bitSum_succ, Nat.pow_succ]
    omega

theorem testBit_bitSum (f : Nat → Bool) {n r : Nat} (hr : r < n) : (bitSum f n).testBit r = f r := by
  induction n with
  | zero => omega
  | succ n ih =>
    rw [bitSum_succ, Nat.add_comm, Nat.mul_comm, Nat.testBit_two_pow_mul_add _ (bitSum_lt f n)]
    split
    · next h => exact ih h
    · next h =>
      obtain rfl : r = n := by omega
      cases f r <;> simp

theorem vvalidWord_eq (s : State) :
    vvalidWord s = BitVec.ofNat 32 (bitSum (fun r => s.valid (Fin.ofNat 16 r)) 16) := rfl

/-! ### The fields of STATUS and VVALID -/

theorem statusWord_powerOn (c : Config) : statusWord (State.powerOn c) = 0 := rfl

@[simp] theorem valid_powerOn (c : Config) (r : RegNum) : (State.powerOn c).valid r = false := by
  simp [State.powerOn, State.valid, State.reg]

theorem vvalidWord_powerOn (c : Config) : vvalidWord (State.powerOn c) = 0 := by
  simp [vvalidWord]

theorem statusWord_fields (s : State) :
    (statusWord s).getLsbD 0 = s.fault ∧ (statusWord s).extractLsb' 1 3 = 0 ∧
      (statusWord s).extractLsb' 4 4 = s.fcode ∧ (statusWord s).extractLsb' 8 24 = 0 := by
  have hfault := s.fault.toNat_le
  have hcode := s.fcode.isLt
  have hlt : s.fault.toNat + s.fcode.toNat * 2 ^ 4 < 2 ^ 32 := by omega
  unfold statusWord
  exact ⟨getLsbD_ofNat_eq hlt (by omega), extractLsb'_ofNat_eq hlt (show _ = 0 by omega),
    extractLsb'_ofNat_eq hlt (by omega), extractLsb'_ofNat_eq hlt (show _ = 0 by omega)⟩

theorem vvalidWord_getLsbD (s : State) (r : RegNum) : (vvalidWord s).getLsbD r.val = s.valid r := by
  have hr : r.val < 32 := by omega
  rw [vvalidWord_eq, BitVec.getLsbD_ofNat, testBit_bitSum _ r.isLt]
  simp [hr]

theorem vvalidWord_upper (s : State) : (vvalidWord s).extractLsb' 16 16 = 0 := by
  have hlt := bitSum_lt (fun r => s.valid (Fin.ofNat 16 r)) 16
  exact extractLsb'_ofNat_eq (n := bitSum _ 16) (by omega) (show _ = 0 by omega)

/-- Settles O14: FAULT and FCODE fit their fields of STATUS, and VVALID is the number whose bits are the valid bits. -/
theorem statusAndVvalidFields : Obligations.StatusAndVvalidFields := by
  refine ⟨fun c => ⟨statusWord_powerOn c, vvalidWord_powerOn c⟩, fun s => ?_⟩
  obtain ⟨hfault, hlow, hcode, hhigh⟩ := statusWord_fields s
  exact ⟨hfault, hlow, hcode, hhigh, vvalidWord_getLsbD s, vvalidWord_upper s⟩

theorem fcmdLo_powerOn (c : Config) : fcmdLo (State.powerOn c) = 0 := by simp [fcmdLo, State.powerOn]

theorem fcmdHi_powerOn (c : Config) : fcmdHi (State.powerOn c) = 0 := by simp [fcmdHi, State.powerOn]

/-- Settles O10: no register is valid after power-on, and the fault registers and the count are 0. -/
theorem powerOnValues : Obligations.PowerOnValues :=
  fun c => ⟨valid_powerOn c, rfl, statusWord_powerOn c, rfl, vvalidWord_powerOn c, rfl, fcmdLo_powerOn c,
    fcmdHi_powerOn c⟩

/-! ### The port -/

/-- FCMDHI and FCMDLO are the two halves of the faulting word (rule R33). -/
theorem fcmdHi_append_fcmdLo (s : State) : fcmdHi s ++ fcmdLo s = s.fcmd := BitVec.extractLsb'_append_extractLsb'

theorem statusRead_of_not_mem (s : State) {off : Nat} (h : off ∉ [0x00, 0x04, 0x08, 0x0C, 0x10, 0x14, 0x18]) :
    statusRead s off = 0 := by
  unfold statusRead
  split
  case h_8 => rfl
  all_goals simp at h

/-- Settles O12: the offsets are the cases of the port's read, and a write through it gives back the state. -/
theorem statusPortMap : Obligations.StatusPortMap := by
  intro s
  exact ⟨⟨rfl, rfl, rfl, rfl, rfl, fcmdHi_append_fcmdLo s⟩, fun _ => statusRead_of_not_mem s,
    fun _ _ _ hs => step_move hs⟩

end Sys2Proof.Machine
end

section
/-! The canonical form of memory (log entry 5): addresses rise strictly, so the list is determined by what has been
written. -/

namespace Sys2Proof.Machine

theorem Memory.risesFrom_cons {low b : Nat} {x : Byte} {m : Memory} :
    Memory.risesFrom low ((b, x) :: m) = true ↔ low ≤ b ∧ m.risesFrom (b + 1) = true := by
  simp [Memory.risesFrom]

@[simp] theorem Memory.written_head (b : Nat) (x : Byte) (m : Memory) : Memory.written ((b, x) :: m) b = some x := by
  simp [Memory.written]

theorem Memory.written_cons (b a : Nat) (x : Byte) (m : Memory) :
    Memory.written ((b, x) :: m) a = if b = a then some x else m.written a := rfl

/-- Below the first address of a rising list nothing has been written. -/
theorem Memory.written_eq_none {m : Memory} {low a : Nat} (h : m.risesFrom low = true) (ha : a < low) :
    m.written a = none := by
  induction m generalizing low with
  | nil => rfl
  | cons e m ih =>
    obtain ⟨b, x⟩ := e
    obtain ⟨hlow, hm⟩ := Memory.risesFrom_cons.mp h
    rw [Memory.written_cons, if_neg (by omega), ih hm (by omega)]

/-- A rising list starts at or before every address that has been written. -/
theorem Memory.head_le_of_written {m : Memory} {low b a : Nat} {x y : Byte}
    (h : Memory.risesFrom low ((b, x) :: m) = true) (ha : Memory.written ((b, x) :: m) a = some y) : b ≤ a := by
  by_contra hlt
  obtain ⟨-, hm⟩ := Memory.risesFrom_cons.mp h
  rw [Memory.written_cons, if_neg (by omega), Memory.written_eq_none hm (by omega)] at ha
  cases ha

/-- Two rising lists with the same written bytes have the same head and, by induction, the same tail. -/
theorem Memory.eq_of_written_eq {m m' : Memory} {low : Nat} (h : m.risesFrom low = true)
    (h' : m'.risesFrom low = true) (hw : ∀ a, m.written a = m'.written a) : m = m' := by
  induction m generalizing m' low with
  | nil =>
    cases m' with
    | nil => rfl
    | cons e' m' => simpa [Memory.written] using hw e'.1
  | cons e m ih =>
    obtain ⟨b, x⟩ := e
    cases m' with
    | nil => simpa [Memory.written] using hw b
    | cons e' m' =>
      obtain ⟨b', x'⟩ := e'
      have hb : Memory.written ((b', x') :: m') b = some x := by simpa using (hw b).symm
      have hb' : Memory.written ((b, x) :: m) b' = some x' := by simpa using hw b'
      obtain rfl := Nat.le_antisymm (Memory.head_le_of_written h hb') (Memory.head_le_of_written h' hb)
      obtain rfl : x' = x := by simpa using hb
      obtain ⟨-, hm⟩ := Memory.risesFrom_cons.mp h
      obtain ⟨-, hm'⟩ := Memory.risesFrom_cons.mp h'
      have htail (a : Nat) : Memory.written m a = Memory.written m' a := by
        by_cases ha : b = a
        · rw [Memory.written_eq_none hm (by omega), Memory.written_eq_none hm' (by omega)]
        · simpa only [Memory.written_cons, if_neg ha] using hw a
      rw [ih hm hm' htail]

/-- Settles O31: the canonical form is a list that rises from address 0. -/
theorem canonicalMemoriesAgree : Obligations.CanonicalMemoriesAgree :=
  fun _ _ => Memory.eq_of_written_eq

end Sys2Proof.Machine
end

section
/-! MemRead, MemWrite, LoadRow and StoreRow byte by byte (rules R40 to R42), the two commands that move a row (rules
R85 and R86), and the host's byte write (rule R50). -/

namespace Sys2Proof.Machine

/-! ### MemRead and MemWrite -/

/-- Settles O29, by induction on the number of bytes: the lowest byte is split off the sum. -/
theorem memReadIsLittleEndian : Obligations.MemReadIsLittleEndian := by
  intro m a n
  induction n generalizing a with
  | zero => rfl
  | succ n ih =>
    rw [memRead, ih, Finset.sum_range_succ', Finset.mul_sum, Nat.add_comm, Nat.pow_zero, Nat.one_mul, Nat.add_zero]
    congr 1
    refine Finset.sum_congr rfl fun k _ => ?_
    rw [Nat.pow_succ', Nat.mul_assoc, show a + (k + 1) = a + 1 + k by omega]

/-- Byte k of the value written is at `a + k` (rule R41). -/
theorem memWrite_read_inside (m : Memory) (a v : Nat) {n k : Nat} (hk : k < n) :
    ((memWrite m a n v).read (a + k)).toNat = v / 256 ^ k % 256 := by
  induction n generalizing m a v k with
  | zero => omega
  | succ n ih =>
    cases k with
    | zero => simp [memWrite, memWrite_read_outside]
    | succ k =>
      rw [memWrite, show a + (k + 1) = a + 1 + k by omega, ih _ _ _ (by omega), Nat.div_div_eq_div_mul,
        ← Nat.pow_succ']

/-- Settles O30: the bytes inside the range are those of the value, for every value, and the bytes outside are kept. -/
theorem memWriteIsLittleEndian : Obligations.MemWriteIsLittleEndian :=
  fun m a n v _ => ⟨fun _ hk => memWrite_read_inside m a v hk, fun b hb => memWrite_read_outside m a n v b hb⟩

/-! ### Rows -/

/-- What pass `i` of a fold over 0 to n-1 establishes, and the later passes keep, holds at its end. -/
theorem foldl_range_establishes {β : Type} (P : β → Prop) {f : β → Nat → β} {n i : Nat} (hi : i < n)
    (hset : ∀ b, P (f b i)) (hkeep : ∀ b j, i < j → j < n → P b → P (f b j)) (b : β) :
    P ((List.range n).foldl f b) := by
  induction n with
  | zero => omega
  | succ n ih =>
    rw [List.range_succ, List.foldl_append, List.foldl_cons, List.foldl_nil]
    rcases Nat.lt_succ_iff_lt_or_eq.mp hi with hlt | rfl
    · exact hkeep _ n hlt (by omega) (ih hlt fun b j hij hj => hkeep b j hij (by omega))
    · exact hset _

/-- Byte k of lane i of a stored row is at `a + i*EBYTES + k` (rule R42): the lanes after it are stored above it. -/
theorem storeRow_read_inside (c : Config) (m : Memory) (a : Nat) (l : List Elem) {i k : Nat} (hi : i < c.w)
    (hk : k < c.ebytes) :
    ((storeRow c m a l).read (a + i * c.ebytes + k)).toNat = (l.getD i 0).toNat / 256 ^ k % 256 := by
  refine foldl_range_establishes
    (fun m' : Memory => (m'.read (a + i * c.ebytes + k)).toNat = (l.getD i 0).toNat / 256 ^ k % 256) hi
    (fun m' => memWrite_read_inside _ _ _ hk) (fun m' j hij _ hm' => ?_) m
  have hle : (i + 1) * c.ebytes ≤ j * c.ebytes := Nat.mul_le_mul_right _ hij
  rw [Nat.succ_mul] at hle
  rw [memWrite_read_outside _ _ _ _ _ (by omega), hm']

/-- An element read from memory is the number MemRead gives (rule R42): EBYTES bytes fit the 64 bits it is held in. -/
theorem toNat_readElem (c : Config) (m : Memory) (a : Nat) : (readElem c m a).toNat = memRead m a c.ebytes := by
  have hlt : memRead m a c.ebytes < 2 ^ 64 :=
    calc memRead m a c.ebytes < 256 ^ c.ebytes := memRead_lt m a c.ebytes
      _ = 2 ^ c.ebits := c.pow_ebytes
      _ ≤ 2 ^ 64 := Nat.pow_le_pow_right (by omega) c.ebits_le
  rw [readElem, BitVec.toNat_ofNat, Nat.mod_eq_of_lt hlt]

theorem getD_loadRow (c : Config) (m : Memory) (a : Nat) {i : Nat} (hi : i < c.w) :
    (loadRow c m a).getD i 0 = readElem c m (a + i * c.ebytes) := by
  simp [loadRow, hi]

/-! ### LOADREG and STOREREG -/

/-- Settles O34: the row loaded is what the destination holds, and LOADREG stores nothing. -/
theorem loadRegLoadsRow : Obligations.LoadRegLoadsRow := by
  intro s vd addr hok
  have he : Effect (.loadReg vd addr) s _ := ⟨hok, rfl⟩
  obtain ⟨hregs, hmem, -, -⟩ := registerFrame_of_exec rfl (exec_of_effect he)
  refine ⟨_, exec_of_effect he, ?_, ?_, fun i hi => ?_, hregs, hmem, he.countedOnly⟩
  · rw [State.valid_eq, State.reg_count, State.reg_writeReg_same]
  · rw [State.reg_count, State.reg_writeReg_same, length_loadRow]
  · rw [State.lane_eq, State.reg_count, State.reg_writeReg_same, getD_loadRow _ _ _ hi, toNat_readElem]

/-- Settles O50: the row store reads as before outside the row, and STOREREG has no target register. -/
theorem storeRegFrame : Obligations.StoreRegFrame := by
  intro s t vs addr h
  refine storingFrame_of_exec (fun u he => ?_) h
  obtain ⟨-, -, rfl⟩ := he
  exact fun b hb => storeRow_read_outside _ _ _ _ _ hb

/-- Settles O35: the row stored is the lanes of the source. -/
theorem storeRegStoresRow : Obligations.StoreRegStoresRow := by
  intro s vs addr hvalid hok
  have he : Effect (.storeReg vs addr) s _ := ⟨hvalid, hok, rfl⟩
  obtain ⟨hregs, hmem, -, -⟩ := storeRegFrame _ _ _ _ (exec_of_effect he)
  refine ⟨_, exec_of_effect he, fun i k hi hk => ?_, hmem, hregs, he.countedOnly⟩
  rw [State.count_mem, State.setMem_mem, storeRow_read_inside _ _ _ _ hi hk, s.getD_lanes _ _ hi]

/-! ### The host's accesses -/

section
variable {s : State} {addr : Word}

theorem hostWriteByte_inside (x : Byte) (h : addr.toNat < s.cfg.memBytes) :
    s.hostWriteByte addr x = .next (s.setMem (s.mem.write addr.toNat x)) := if_pos h

theorem hostWriteByte_beyond (x : Byte) (h : s.cfg.memBytes ≤ addr.toNat) :
    s.hostWriteByte addr x = .fault (.hostAddressInvalid addr) := if_neg (Nat.not_lt.mpr h)

/-- What the host has written it reads back (rules R45 and R50). -/
theorem hostReadByte_setMem_write (x : Byte) (h : addr.toNat < s.cfg.memBytes) :
    (s.setMem (s.mem.write addr.toNat x)).hostReadByte addr = .ok x := by
  simp [State.hostReadByte, h]

theorem hostReadByte_beyond (h : s.cfg.memBytes ≤ addr.toNat) :
    s.hostReadByte addr = .error (.hostAddressInvalid addr) := if_neg (Nat.not_lt.mpr h)

end

/-- Settles O11: the host's write is one write of memory, which is read back at its own address only. -/
theorem hostWriteStoresByte : Obligations.HostWriteStoresByte := by
  intro s addr x rest hs
  have hstep : step s = (s.popHost rest).hostWriteByte addr x := step_move hs
  refine ⟨fun hin => ?_, fun hout => ⟨hstep.trans (hostWriteByte_beyond x hout), hostReadByte_beyond hout⟩⟩
  exact ⟨_, hstep.trans (hostWriteByte_inside x hin), hostReadByte_setMem_write x hin, Memory.read_write_same _ _ _,
    fun b hb => Memory.read_write_other _ _ _ _ hb, rfl, ⟨rfl, rfl, rfl, rfl⟩, rfl, rfl, rfl, rfl⟩

end Sys2Proof.Machine
end

section
/-! The checks of a command in their order (rules R43, R92, R136): decoding, source registers, alignment, bounds. -/

namespace Sys2Proof.Machine

/-! ### Illegal words -/

/-- The word of a well-formed instruction has none of the causes of ILLEGAL (rule R131). -/
theorem not_illegalWord_encode {c : Config} {i : Instr} (hwf : i.wf c = true) : ¬ IllegalWord c (encode i) := by
  cases i with
  | loadReg | storeReg | reverse | transpose | intraSort | sortBlock => simp [IllegalWord, encode]
  | minMax | intraSort2 | maskedIntraSort2 | bitonicMerge | maskedMinMax =>
    simpa [Instr.wf, Instr.distinctRegs, Instr.patternInRange, IllegalWord, encode] using hwf

theorem not_illegalWord_of_decode {c : Config} {w : CmdWord} {i : Instr} (h : decode c w = .ok i) :
    ¬ IllegalWord c w := by
  obtain ⟨rfl, hwf⟩ := encode_eq_and_wf_of_decode h
  exact not_illegalWord_encode hwf

section
variable {s : State} {i : Instr}

/-! ### Running a word -/

theorem runWord_of_decode_error {w : CmdWord} {e : DecodeError} (h : decode s.cfg w = .error e) :
    runWord w s = .next (s.enterFault .illegal w) := by simp [runWord, h]

theorem runWord_of_decode {w : CmdWord} (h : decode s.cfg w = .ok i) : runWord w s = exec i s := by simp [runWord, h]

/-! ### Which check fails -/

/-- A well-formed command with a source register that no command has written takes UNWRITTEN (rule R132). -/
theorem exec_unwritten (hwf : i.wf s.cfg = true) (h : ∃ r ∈ sources s.cfg i, s.valid r = false) :
    exec i s = .next (s.enterFault .unwritten (encode i)) := by
  cases i with
  | loadReg | sortBlock => simp [sources] at h
  | storeReg vs | reverse _ vs | intraSort _ vs =>
    have hvs : s.valid vs = false := by simpa [sources] using h
    simp [exec, execStoreReg, execReverse, execIntraSort, readReg_invalid hvs]
  | minMax va vb | intraSort2 va vb | maskedIntraSort2 va vb | bitonicMerge va vb =>
    have hne : va ≠ vb := by simpa [Instr.wf, Instr.distinctRegs, Instr.patternInRange] using hwf
    have hpair : s.valid va = false ∨ s.valid vb = false := by simpa [sources] using h
    simp [exec, execMinMax, execIntraSort2, execMaskedIntraSort2, execBitonicMerge, mergePair,
      checkDistinct_ne hne, readPair_invalid hpair]
  | maskedMinMax va vb pat =>
    obtain ⟨hne, hpat⟩ : va ≠ vb ∧ pat.val ≤ s.cfg.logw := by
      simpa [Instr.wf, Instr.distinctRegs, Instr.patternInRange] using hwf
    have hpair : s.valid va = false ∨ s.valid vb = false := by simpa [sources] using h
    simp [exec, execMaskedMinMax, checkDistinct_ne hne, checkPattern_le hpat, readPair_invalid hpair]
  | transpose =>
    have hblock : blockRegsValid s = false := by
      obtain ⟨r, hr, hinvalid⟩ := h
      refine Bool.eq_false_iff.mpr fun hall => ?_
      simp [blockRegsValid_iff.mp hall r (mem_blockRegs.mp hr)] at hinvalid
    simp [exec, execTranspose, readBlockRegs_invalid hblock]

/-- A command whose sources are written and whose address fails CheckAddr takes that fault (rules R43, R133, R134). -/
theorem exec_checkAddr_error {addr : Word} {n : Nat} {f : FaultCause}
    (hsrc : ∀ r ∈ sources s.cfg i, s.valid r = true) (hacc : accessed s.cfg i = some (addr, n))
    (herr : checkAddr s.cfg addr n = .error f) : exec i s = .next (s.enterFault f (encode i)) := by
  cases i with
  | loadReg | sortBlock =>
    cases hacc
    simp [exec, execLoadReg, execSortBlock, herr]
  | storeReg vs =>
    cases hacc
    have hvs : s.valid vs = true := hsrc vs (by simp [sources])
    simp [exec, execStoreReg, readReg_valid hvs, herr]
  | minMax | maskedMinMax | reverse | transpose | intraSort | intraSort2 | maskedIntraSort2 | bitonicMerge => cases hacc

/-- A well-formed command that passes the register and address checks has its effect (rule R92). -/
theorem exists_effect (hwf : i.wf s.cfg = true) (hsrc : ∀ r ∈ sources s.cfg i, s.valid r = true)
    (hacc : ∀ addr n, accessed s.cfg i = some (addr, n) → AddrOk s.cfg addr n) : ∃ u, Effect i s u := by
  cases i with
  | loadReg => exact ⟨_, hacc _ _ rfl, rfl⟩
  | storeReg vs => exact ⟨_, hsrc vs (by simp [sources]), hacc _ _ rfl, rfl⟩
  | reverse _ vs | intraSort _ vs => exact ⟨_, hsrc vs (by simp [sources]), rfl⟩
  | minMax va vb | intraSort2 va vb | maskedIntraSort2 va vb | bitonicMerge va vb =>
    have hne : va ≠ vb := by simpa [Instr.wf, Instr.distinctRegs, Instr.patternInRange] using hwf
    exact ⟨_, hne, hsrc va (by simp [sources]), hsrc vb (by simp [sources]), rfl⟩
  | maskedMinMax va vb pat =>
    obtain ⟨hne, hpat⟩ : va ≠ vb ∧ pat.val ≤ s.cfg.logw := by
      simpa [Instr.wf, Instr.distinctRegs, Instr.patternInRange] using hwf
    exact ⟨_, hne, hpat, hsrc va (by simp [sources]), hsrc vb (by simp [sources]), rfl⟩
  | transpose => exact ⟨_, blockRegsValid_iff.mpr fun r hr => hsrc r (mem_blockRegs.mpr hr), rfl⟩
  | sortBlock => exact ⟨_, hacc _ _ rfl, _, rfl, rfl⟩

end

/-- Settles O21: one lemma per check that can fail, and the counted effect where all pass. -/
theorem firstFailingCheckIsTheFault : Obligations.FirstFailingCheckIsTheFault := by
  intro w s hf
  cases hd : decode s.cfg w with
  | error e =>
    exact ⟨_, runWord_of_decode_error hd, fun _ => faultTaken_enterFault s .illegal w, nofun⟩
  | ok i =>
    obtain ⟨hword, hwf⟩ := encode_eq_and_wf_of_decode hd
    obtain ⟨t, ht⟩ := exec_exists_next i s
    have hfault {f : FaultCause} (h : exec i s = .next (s.enterFault f (encode i))) :
        FaultTaken f.code f.address w s t := by
      cases ht.symm.trans h
      exact hword ▸ faultTaken_enterFault s f (encode i)
    refine ⟨t, (runWord_of_decode hd).trans ht, fun hill => absurd hill (not_illegalWord_of_decode hd), ?_⟩
    rintro _ ⟨⟩
    refine ⟨fun hsrc => hfault (exec_unwritten hwf hsrc), fun hsrc => ⟨fun addr n hacc => ⟨fun hmis => ?_,
      fun halign hbeyond => ?_⟩, fun hok => ?_⟩⟩
    · exact hfault (exec_checkAddr_error hsrc hacc (checkAddr_misaligned hmis))
    · exact hfault (exec_checkAddr_error hsrc hacc (checkAddr_bounds halign hbeyond))
    · obtain ⟨u, he⟩ := exists_effect hwf hsrc hok
      cases ht.symm.trans (exec_of_effect he)
      obtain ⟨hcnt, ⟨hsame, -, -, -⟩, -⟩ := he.countedOnly
      exact ⟨hsame.trans hf, hcnt⟩

end Sys2Proof.Machine
end

section
/-! The command word and its instruction (rules R60 to R67, R71): decoding an encoded instruction, words written
out from the spec, the step on a word that decodes, and what an ill-formed instruction does. -/

namespace Sys2Proof

/-! ### Decoding an encoded instruction -/

/-- Every operand sits in its field and the fields the format does not use are zero (rules R61 and R71). -/
theorem decodeFields_encode (i : Instr) :
    decodeFields (fieldOp (encode i)) (fieldRA (encode i)) (fieldRB (encode i)) (fieldPat (encode i))
      (fieldAddr (encode i)) = .ok i := by
  cases i <;> simp [encode, decodeFields, whenUnusedZero]

theorem fieldZero_encode (i : Instr) : fieldZero (encode i) = 0 := by
  cases i <;> simp [encode]

/-- Only the conditions on operand values are left to decide whether the word of an instruction decodes (rule R67). -/
theorem decode_encode (c : Config) (i : Instr) : decode c (encode i) = checkOperands c i := by
  simp [decode, fieldZero_encode, decodeFields_encode]

theorem checkOperands_of_wf {c : Config} {i : Instr} (hwf : i.wf c = true) : checkOperands c i = .ok i := by
  obtain ⟨hdistinct, hpattern⟩ : i.distinctRegs = true ∧ i.patternInRange c = true := by
    simpa [Instr.wf] using hwf
  simp [checkOperands, hdistinct, hpattern]

/-- Settles O2: the fields of the word give the instruction back, and its operands pass steps 5 and 6 of rule R67. -/
theorem decodeOfEncode : Obligations.DecodeOfEncode :=
  fun c i hwf => (decode_encode c i).trans (checkOperands_of_wf hwf)

/-- Settles O3: the fields that no operand takes are zero, so the word is rebuilt from the instruction's operands. -/
theorem encodeOfDecode : Obligations.EncodeOfDecode := fun _ _ _ => encode_eq_and_wf_of_decode

/-- Settles O1: each of the seventeen words is decoded by evaluation. -/
theorem specWordsDecode : Obligations.SpecWordsDecode := by
  unfold Obligations.SpecWordsDecode
  decide

end Sys2Proof

namespace Sys2Proof.Machine

/-! ### The step on a word that decodes -/

/-- Settles O5: an accepted word is run, and running a word that decodes is `exec` of its instruction. -/
theorem stepRunsDecodedInstruction : Obligations.StepRunsDecodedInstruction := by
  intro s w rest i hs hf hd
  refine ⟨(step_command hs hf).trans (runWord_of_decode hd), rfl, ?_⟩
  rw [← hs]
  rfl

/-! ### Ill-formed instructions -/

/-- The check that an ill-formed instruction fails comes before its registers are read (log entry 10). -/
theorem exec_not_wf {s : State} {i : Instr} (hwf : i.wf s.cfg = false) :
    exec i s = .next (s.enterFault .illegal (encode i)) := by
  cases i with
  | loadReg | storeReg | reverse | transpose | intraSort | sortBlock => cases hwf
  | minMax va vb | intraSort2 va vb | maskedIntraSort2 va vb | bitonicMerge va vb =>
    obtain rfl : va = vb := by simpa [Instr.wf, Instr.distinctRegs, Instr.patternInRange] using hwf
    simp [exec, execMinMax, execIntraSort2, execMaskedIntraSort2, execBitonicMerge, mergePair]
  | maskedMinMax va vb pat =>
    by_cases hsame : va = vb
    · subst hsame
      simp [exec, execMaskedMinMax]
    · have hpat : s.cfg.logw < pat.val := by
        simpa [Instr.wf, Instr.distinctRegs, Instr.patternInRange, hsame] using hwf
      simp [exec, execMaskedMinMax, checkDistinct_ne hsame, checkPattern_gt hpat]

/-- Settles O48: an ill-formed instruction takes the fault entry for ILLEGAL with its own word. -/
theorem illFormedOperandsFault : Obligations.IllFormedOperandsFault :=
  fun s i hwf => ⟨_, exec_not_wf hwf, faultTaken_enterFault s .illegal (encode i)⟩

end Sys2Proof.Machine
end

section
/-! The order on elements (rules R80 to R83): the keys of the integer and of the float instances, and that the key of
an element determines its bits. -/

namespace Sys2Proof.Machine

/-! ### The two keys, on patterns of any width -/

/-- The signed value of rule R8 is the two's-complement value of the pattern. -/
theorem signedValue_toNat {n : Nat} (hn : 0 < n) (x : BitVec n) : signedValue n x.toNat = x.toInt := by
  have hhalf : 2 ^ n = 2 * 2 ^ (n - 1) := by rw [← Nat.pow_succ', Nat.succ_eq_add_one, Nat.sub_add_cancel hn]
  have hsign : x.toNat < 2 ^ (n - 1) ↔ 2 * x.toNat < 2 ^ n := by omega
  simp [signedValue, BitVec.toInt_eq_toNat_cond, hsign]

/-- Rule R81 with the sign bit and the magnitude read from the pattern. -/
theorem floatKey_succ {n x : Nat} (hx : x < 2 ^ (n + 1)) :
    floatKey (n + 1) x = if x.testBit n then -((x % 2 ^ n : Nat) : Int) - 1 else ((x % 2 ^ n : Nat) : Int) := by
  rw [Nat.pow_succ] at hx
  unfold floatKey
  rw [Nat.add_sub_cancel]
  by_cases h : x < 2 ^ n
  · rw [if_pos h, Nat.testBit_lt_two_pow h, Nat.mod_eq_of_lt h]
    rfl
  · have hmod : x % 2 ^ n = x - 2 ^ n := by rw [Nat.mod_eq_sub_mod (by omega), Nat.mod_eq_of_lt (by omega)]
    have hbit : x.testBit n = true := by
      rw [Nat.testBit_eq_decide_div_mod_eq, Nat.div_eq_of_lt_le (k := 1) (by omega) (by omega)]
      rfl
    rw [if_neg h, if_pos hbit, hmod, Nat.cast_sub (by omega)]
    push_cast
    rfl

/-- A pattern is determined by its signed value. -/
theorem signedValue_inj {n x y : Nat} (hx : x < 2 ^ n) (hy : y < 2 ^ n) (h : signedValue n x = signedValue n y) :
    x = y := by
  have hcast : ((2 ^ n : Nat) : Int) = (2 : Int) ^ n := by push_cast; rfl
  unfold signedValue at h
  split at h <;> split at h <;> omega

/-- A pattern is determined by its sign-and-magnitude key: the keys of patterns with sign bit 1 are negative. -/
theorem floatKey_inj {n x y : Nat} (h : floatKey n x = floatKey n y) : x = y := by
  have hcast : ((2 ^ (n - 1) : Nat) : Int) = (2 : Int) ^ (n - 1) := by push_cast; rfl
  unfold floatKey at h
  split at h <;> split at h <;> omega

/-! ### The key of an element -/

/-- Elements with the same key are the same bits (rules R80 and R81). -/
theorem key_inj {c : Config} {a b : Elem} (ha : IsElem c a) (hb : IsElem c b) (h : key c a = key c b) : a = b := by
  refine BitVec.eq_of_toNat_eq ?_
  unfold key at h
  split at h
  case h_1 | h_2 => exact signedValue_inj ha hb h
  case h_3 | h_4 => exact floatKey_inj h

/-- Settles O25: the key is the signed value of the pattern, in its own width of 32 or of 64 bits. -/
theorem integerKeyIsSigned : Obligations.IntegerKeyIsSigned := by
  intro c v hv
  constructor <;> intro hc <;> simp only [IsElem, Config.ebits, hc] at hv
  · have hkey : key c v = (v.setWidth 32).toInt := by
      rw [← signedValue_toNat (by omega), BitVec.toNat_setWidth, Nat.mod_eq_of_lt hv]
      simp only [key, Config.ebits, hc]
    have hlow := (v.setWidth 32).le_toInt
    have hhigh := (v.setWidth 32).toInt_lt
    rw [hkey]
    omega
  · have hkey : key c v = v.toInt := by
      rw [← signedValue_toNat (by omega)]
      simp only [key, Config.ebits, hc]
    have hlow := v.le_toInt
    have hhigh := v.toInt_lt
    rw [hkey]
    omega

/-- Settles O26: the sign is the top bit of the 32 or 64 bits, the magnitude the number the others give. -/
theorem floatKeyIsSignMagnitude : Obligations.FloatKeyIsSignMagnitude := by
  intro c v hv
  constructor <;> intro hc <;> simp only [IsElem, Config.ebits, hc] at hv <;>
    simpa [key, Config.ebits, hc, BitVec.getLsbD] using floatKey_succ hv

/-- Settles O27: two elements that are le each other have the same key. -/
theorem orderIsAntisymmetric : Obligations.OrderIsAntisymmetric :=
  fun _ _ _ ha hb hab hba => key_inj ha hb (le_antisymm hab hba)

/-! ### The compare-exchange -/

theorem minT_le_maxT (c : Config) (a b : Elem) : elemLe c (minT c a b) (maxT c a b) := by
  unfold minT maxT
  split
  · assumption
  · next h => exact le_of_not_ge h

/-- Settles O28: the compare-exchange gives the pair (a, b) or the pair (b, a), by whether le(a, b). -/
theorem compareExchangeRearranges : Obligations.CompareExchangeRearranges :=
  fun c a b => ⟨fun h => ⟨if_pos h, if_pos h, cmpx_of_le h⟩, fun h => ⟨if_neg h, if_neg h, cmpx_of_not_le h⟩,
    minT_le_maxT c a b⟩

end Sys2Proof.Machine
end

section
/-! Patterns and registers lane by lane (rules R21, R88): the permutation of a pattern, the masked compare-exchange as
a MINMAX between two permutations (rule R94), and what a register reads as after a command. -/

namespace Sys2Proof.Machine

open scoped List

/-! ### The permutations of rule R88 -/

theorem patternLane_lt {c : Config} {p i : Nat} (hp : p ≤ c.logw) (hi : i < c.w) : patternLane p i < c.w := by
  rw [c.w_eq_two_pow] at hi ⊢
  have hmono : 2 ^ p ≤ 2 ^ c.logw := Nat.pow_le_pow_right (by omega) hp
  have hpos : 0 < 2 ^ p := Nat.two_pow_pos p
  exact Nat.xor_lt_two_pow hi (by omega)

@[simp] theorem patternLane_patternLane (p i : Nat) : patternLane p (patternLane p i) = i :=
  Nat.xor_xor_cancel_right _ _

@[simp] theorem patternLane_zero (i : Nat) : patternLane 0 i = i := by simp [patternLane]

/-- Flipping the low `n` bits of a number below 2^n counts down from the top. -/
theorem xor_two_pow_sub_one {n i : Nat} (hi : i < 2 ^ n) : i ^^^ (2 ^ n - 1) = 2 ^ n - (i + 1) := by
  refine Nat.eq_of_testBit_eq fun j => ?_
  rw [Nat.testBit_xor, Nat.testBit_two_pow_sub_one, Nat.testBit_two_pow_sub_succ hi]
  by_cases hj : j < n
  · simp [hj]
  · have hzero : i.testBit j = false :=
      Nat.testBit_lt_two_pow (hi.trans_le (Nat.pow_le_pow_right (by omega) (by omega)))
    simp [hj, hzero]

/-- PI_LOGW is the permutation of REVERSE. -/
theorem patternLane_logw {c : Config} {i : Nat} (hi : i < c.w) : patternLane c.logw i = c.w - 1 - i := by
  rw [c.w_eq_two_pow] at hi ⊢
  rw [patternLane, xor_two_pow_sub_one hi]
  omega

/-- Settles O38: the permutations are involutions of the lanes; the five lists are evaluated. -/
theorem patternTable : Obligations.PatternTable :=
  ⟨fun _ _ => rfl, fun _ _ hi => patternLane_logw hi,
    fun _ p hp i hi => ⟨patternLane_lt hp hi, patternLane_patternLane p i⟩, by decide, by decide, by decide, by decide,
    by decide⟩

/-! ### Permuted lanes -/

/-- The lanes of a register taken in the order of PI_p (rule R88). -/
def permuteLanes (p : Nat) (l : List Elem) : List Elem :=
  (List.range l.length).map fun i => l.getD (patternLane p i) 0

@[simp] theorem length_permuteLanes (p : Nat) (l : List Elem) : (permuteLanes p l).length = l.length := by
  simp [permuteLanes]

theorem getD_permuteLanes (p : Nat) {l : List Elem} {i : Nat} (hi : i < l.length) :
    (permuteLanes p l).getD i 0 = l.getD (patternLane p i) 0 := by
  simp [permuteLanes, hi]

/-- Two lists of one length are equal when their entries are. -/
theorem eq_of_getD_eq {l l' : List Elem} (hlen : l.length = l'.length)
    (h : ∀ i < l'.length, l.getD i 0 = l'.getD i 0) : l = l' := by
  refine List.ext_getElem hlen fun i hi hi' => ?_
  simpa [hi, hi'] using h i hi'

@[simp] theorem permuteLanes_zero (l : List Elem) : permuteLanes 0 l = l :=
  eq_of_getD_eq (by simp) fun i hi => by rw [getD_permuteLanes 0 hi, patternLane_zero]

theorem permuteLanes_logw {c : Config} {l : List Elem} (hl : l.length = c.w) : permuteLanes c.logw l = l.reverse := by
  refine eq_of_getD_eq (by simp) fun i hi => ?_
  rw [List.length_reverse] at hi
  rw [getD_permuteLanes _ hi, patternLane_logw (hl ▸ hi), ← hl]
  simp [hi, show l.length - 1 - i < l.length by omega]

/-- PI_p names every lane once. -/
theorem map_patternLane_perm {c : Config} {p : Nat} (hp : p ≤ c.logw) :
    ((List.range c.w).map (patternLane p)).Perm (List.range c.w) := by
  have hinj : Function.Injective (patternLane p) := Function.LeftInverse.injective (patternLane_patternLane p)
  refine (List.subperm_of_subset (List.nodup_range.map hinj) fun j hj => ?_).perm_of_length_le (by simp)
  obtain ⟨i, hi, rfl⟩ := List.mem_map.mp hj
  exact List.mem_range.mpr (patternLane_lt hp (List.mem_range.mp hi))

theorem permuteLanes_perm {c : Config} {p : Nat} {l : List Elem} (hp : p ≤ c.logw) (hl : l.length = c.w) :
    (permuteLanes p l).Perm l := by
  have hmap : (List.range c.w).map (l.getD · 0) = l := eq_of_getD_eq (by simp [hl]) fun i hi => by simp [← hl, hi]
  have hperm := (map_patternLane_perm hp).map (l.getD · 0)
  rw [hmap, List.map_map, ← hl] at hperm
  exact hperm

/-! ### The compare-exchange of two registers -/

section
variable {c : Config} {a b : List Elem}

@[simp] theorem length_minMaxLanes_fst : (minMaxLanes c a b).1.length = min a.length b.length := by simp [minMaxLanes]

@[simp] theorem length_minMaxLanes_snd : (minMaxLanes c a b).2.length = min a.length b.length := by simp [minMaxLanes]

theorem getD_minMaxLanes {i : Nat} (ha : i < a.length) (hb : i < b.length) :
    (minMaxLanes c a b).1.getD i 0 = minT c (a.getD i 0) (b.getD i 0) ∧
      (minMaxLanes c a b).2.getD i 0 = maxT c (a.getD i 0) (b.getD i 0) := by
  simp [minMaxLanes, ha, hb]

/-- Rule R93 (a): the compare-exchange of two registers rearranges their lanes. -/
theorem minMaxLanes_perm (h : a.length = b.length) :
    ((minMaxLanes c a b).1 ++ (minMaxLanes c a b).2).Perm (a ++ b) := by
  induction a generalizing b with
  | nil => cases b <;> simp_all [minMaxLanes]
  | cons x a ih =>
    cases b with
    | nil => simp at h
    | cons y b =>
      have hpair : [minT c x y, maxT c x y].Perm [x, y] := by
        by_cases hle : elemLe c x y
        · simp [minT, maxT, hle]
        · simpa [minT, maxT, hle] using List.Perm.swap x y []
      have htail := ih (b := b) (by simpa using h)
      calc (minT c x y :: (minMaxLanes c a b).1) ++ (maxT c x y :: (minMaxLanes c a b).2)
        _ ~ [minT c x y, maxT c x y] ++ ((minMaxLanes c a b).1 ++ (minMaxLanes c a b).2) := .cons _ List.perm_middle
        _ ~ [x, y] ++ (a ++ b) := hpair.append htail
        _ ~ (x :: a) ++ (y :: b) := (List.perm_middle (l₁ := a)).symm.cons x

end

/-- Filling every entry of a list once, entry π(i) in pass i, π an involution. -/
theorem foldl_set_involution {n : Nat} {π : Nat → Nat} (hlt : ∀ i < n, π i < n) (hinv : ∀ i, π (π i) = i)
    (g : Nat → Elem) {l : List Elem} (hl : l.length = n) :
    (List.range n).foldl (fun s i => s.set (π i) (g i)) l = (List.range n).map fun i => g (π i) := by
  have hlen : ((List.range n).foldl (fun s i => s.set (π i) (g i)) l).length = n :=
    foldl_keeps (fun s : List Elem => s.length = n) _ _ _ hl fun _ _ s hs => by rwa [List.length_set]
  refine eq_of_getD_eq (by simp [hlen]) fun i hi => ?_
  have hi : i < n := by simpa using hi
  have hfill := foldl_range_establishes (fun s : List Elem => s.length = n → s.getD i 0 = g (π i))
    (f := fun s i => s.set (π i) (g i)) (hlt i hi) (fun s hs => ?_) (fun s j hij _ hs hlen => ?_) l hlen
  · simpa [hi] using hfill
  · rw [List.length_set] at hs
    simp [hinv, hs, hi]
  · have hne : π j ≠ i := fun h => by rw [← h, hinv] at hij; omega
    rw [List.length_set] at hlen
    simpa [hne] using hs hlen

/-- Rule R94 (c): the masked compare-exchange is that of MINMAX between two permutations of the second register. -/
theorem maskedLanes_patternPairs {c : Config} {a b : List Elem} {p : Nat} (hp : p ≤ c.logw) (ha : a.length = c.w)
    (hb : b.length = c.w) :
    maskedLanes c (patternPairs c.w p) a b =
      ((minMaxLanes c a (permuteLanes p b)).1, permuteLanes p (minMaxLanes c a (permuteLanes p b)).2) := by
  have hπ {i : Nat} (hi : i < c.w) : patternLane p i < c.w := patternLane_lt hp hi
  simp only [maskedLanes, patternPairs, List.foldl_map]
  rw [foldl_set_involution (π := fun i => i) (fun _ h => h) (fun _ => rfl) _ ha,
    foldl_set_involution (fun _ => hπ) (patternLane_patternLane p) _ hb]
  refine Prod.ext (eq_of_getD_eq (by simp [ha, hb]) fun i hi => ?_) (eq_of_getD_eq (by simp [ha, hb]) fun i hi => ?_)
  · have hi : i < c.w := by simpa [ha, hb] using hi
    rw [(getD_minMaxLanes (by omega) (by simpa [hb])).1, getD_permuteLanes p (by omega)]
    simp [hi]
  · have hi : i < c.w := by simpa [ha, hb] using hi
    have hia : patternLane p i < a.length := ha ▸ hπ hi
    have hib : patternLane p i < b.length := hb ▸ hπ hi
    rw [getD_permuteLanes p (by simpa [ha, hb]), (getD_minMaxLanes hia (by simpa)).2, getD_permuteLanes p hib]
    simp [hi]

end Sys2Proof.Machine
end

section
/-! MINMAX, MASKEDMINMAX, REVERSE and TRANSPOSE (rules R87 to R91): their effect lane by lane, that they rearrange
lanes, and the identities between them (rules R93 and R94). -/

namespace Sys2Proof.Machine

/-! ### Lanes after an update -/

section
variable (s : State)

@[simp] theorem State.valid_count (q : RegNum) : s.count.valid q = s.valid q := rfl
@[simp] theorem State.lane_count (q : RegNum) (i : Nat) : s.count.lane q i = s.lane q i := rfl
@[simp] theorem State.lanes_count (q : RegNum) : s.count.lanes q = s.lanes q := rfl

@[simp] theorem State.valid_writeReg_same (r : RegNum) (l : List Elem) : (s.writeReg r l).valid r = true := by
  simp [State.valid_eq]

theorem State.valid_writeReg_other {r q : RegNum} (l : List Elem) (h : q ≠ r) :
    (s.writeReg r l).valid q = s.valid q := by
  rw [State.valid_eq, State.reg_writeReg_other s r q l h, State.valid_eq]

@[simp] theorem State.lane_writeReg_same (r : RegNum) (l : List Elem) (i : Nat) :
    (s.writeReg r l).lane r i = l.getD i 0 := by
  rw [State.lane_eq, State.reg_writeReg_same]

theorem State.lanes_writeReg_other {r q : RegNum} (l : List Elem) (h : q ≠ r) :
    (s.writeReg r l).lanes q = s.lanes q :=
  State.lanes_congr q rfl (s.reg_writeReg_other r q l h)

theorem State.valid_writePair (va vb : RegNum) (p : List Elem × List Elem) :
    (s.writePair va vb p).valid va = true ∧ (s.writePair va vb p).valid vb = true := by
  simp only [State.valid_eq, State.reg_writePair]
  split <;> simp

theorem State.lane_writePair {va vb : RegNum} (hne : va ≠ vb) (p : List Elem × List Elem) (i : Nat) :
    (s.writePair va vb p).lane va i = p.1.getD i 0 ∧ (s.writePair va vb p).lane vb i = p.2.getD i 0 := by
  simp [State.lane_eq, State.reg_writePair, hne]

theorem State.lanes_writePair {va vb : RegNum} (hne : va ≠ vb) {p : List Elem × List Elem}
    (hfst : p.1.length = s.cfg.w) (hsnd : p.2.length = s.cfg.w) :
    (s.writePair va vb p).lanes va = p.1 ∧ (s.writePair va vb p).lanes vb = p.2 :=
  ⟨((s.writeReg va p.1).lanes_writeReg_other p.2 hne).trans (s.lanes_writeReg_same va hfst),
    (s.writeReg va p.1).lanes_writeReg_same vb hsnd⟩

theorem State.lanes_ext {s t : State} {q : RegNum} (hcfg : t.cfg = s.cfg)
    (h : ∀ i < s.cfg.w, t.lane q i = s.lane q i) : t.lanes q = s.lanes q := by
  rw [State.lanes, State.lanes, hcfg]
  exact List.map_congr_left fun i hi => h i (List.mem_range.mp hi)

end

/-! ### The commands complete -/

section
variable {s : State} {va vb : RegNum}

/-- What a command that stores nothing leaves alone when it completes. -/
theorem Effect.leaves {i : Instr} {u : State} (he : Effect i s u) (hi : stores i = false) :
    SameRegsExcept (targets s.cfg i) s u.count ∧ SameMemory s u.count ∧ CountedOnly s u.count := by
  obtain ⟨hregs, hmem, -, -⟩ := registerFrame_of_exec hi (exec_of_effect he)
  exact ⟨hregs, hmem, he.countedOnly⟩

theorem exec_reverse {vs : RegNum} (vd : RegNum) (h : s.valid vs = true) :
    exec (.reverse vd vs) s = .next (s.writeReg vd (s.lanes vs).reverse).count :=
  exec_of_effect ⟨h, rfl⟩

/-- The effect of MINMAX on two different valid registers. -/
theorem effect_minMax (hne : va ≠ vb) (ha : s.valid va = true) (hb : s.valid vb = true) :
    Effect (.minMax va vb) s (s.writePair va vb (minMaxLanes s.cfg (s.lanes va) (s.lanes vb))) :=
  ⟨hne, ha, hb, rfl⟩

/-- The effect of MASKEDMINMAX, as a MINMAX between two permutations (rule R94 (c)). -/
theorem effect_maskedMinMax {pat : PatNum} (hp : pat.val ≤ s.cfg.logw) (hne : va ≠ vb) (ha : s.valid va = true)
    (hb : s.valid vb = true) :
    Effect (.maskedMinMax va vb pat) s
      (s.writePair va vb
        ((minMaxLanes s.cfg (s.lanes va) (permuteLanes pat.val (s.lanes vb))).1,
          permuteLanes pat.val (minMaxLanes s.cfg (s.lanes va) (permuteLanes pat.val (s.lanes vb))).2)) := by
  rw [← maskedLanes_patternPairs hp (s.length_lanes va) (s.length_lanes vb)]
  exact ⟨hne, hp, ha, hb, rfl⟩

end

/-! ### What each command does -/

/-- Settles O36: the two registers hold the lanewise minima and maxima, which are in order. -/
theorem minMaxComparesLanes : Obligations.MinMaxComparesLanes := by
  intro s va vb hne ha hb
  have he := effect_minMax hne ha hb
  obtain ⟨hva, hvb⟩ := s.valid_writePair va vb (minMaxLanes s.cfg (s.lanes va) (s.lanes vb))
  refine ⟨_, exec_of_effect he, hva, hvb, fun i hi => ?_, he.leaves rfl⟩
  obtain ⟨hmin, hmax⟩ := getD_minMaxLanes (c := s.cfg) (a := s.lanes va) (b := s.lanes vb) (i := i) (by simpa)
    (by simpa)
  obtain ⟨hla, hlb⟩ := s.lane_writePair hne (minMaxLanes s.cfg (s.lanes va) (s.lanes vb)) i
  rw [State.lane_count, State.lane_count, hla, hlb, hmin, hmax, s.getD_lanes _ _ hi, s.getD_lanes _ _ hi]
  exact ⟨rfl, rfl, minT_le_maxT _ _ _⟩

/-- Settles O37: lane i of vb, permuted before and after, meets lane i of va. -/
theorem maskedMinMaxComparesPairs : Obligations.MaskedMinMaxComparesPairs := by
  intro s va vb pat hne hp ha hb
  have he := effect_maskedMinMax hp hne ha hb
  obtain ⟨hva, hvb⟩ := s.valid_writePair va vb _
  refine ⟨_, exec_of_effect he, hva, hvb, fun i hi => ?_, he.leaves rfl⟩
  have hπ : patternLane pat.val i < s.cfg.w := patternLane_lt hp hi
  obtain ⟨hmin, hmax⟩ := getD_minMaxLanes (c := s.cfg) (a := s.lanes va)
    (b := permuteLanes pat.val (s.lanes vb)) (i := i) (by simpa) (by simpa)
  change _ ∧ State.lane _ vb (patternLane pat.val i) = maxT s.cfg _ (s.lane vb (patternLane pat.val i))
  rw [State.lane_count, State.lane_count, (s.lane_writePair hne _ _).1, (s.lane_writePair hne _ _).2,
    getD_permuteLanes _ (by simpa), patternLane_patternLane, hmin, hmax, getD_permuteLanes _ (by simpa),
    s.getD_lanes _ _ hi, s.getD_lanes _ _ hπ]
  exact ⟨rfl, rfl⟩

/-- Settles O39: the destination holds the reversed list of the source's lanes. -/
theorem reverseReversesLanes : Obligations.ReverseReversesLanes := by
  intro s vd vs hvalid
  have he : Effect (.reverse vd vs) s _ := ⟨hvalid, rfl⟩
  refine ⟨_, exec_of_effect he, s.valid_writeReg_same vd _, fun i hi => ?_, he.leaves rfl⟩
  rw [State.lane_count, State.lane_writeReg_same, ← s.getD_lanes vs (s.cfg.w - 1 - i) (by omega)]
  simp [hi, show s.cfg.w - 1 - i < s.cfg.w by omega]

/-! ### Commands applied twice -/

/-- Settles O52: lane i moves to W-1-i and back. -/
theorem reverseTwiceIsIdentity : Obligations.ReverseTwiceIsIdentity := by
  intro s r hvalid
  obtain ⟨t, ht, htvalid, htlane, -, -, -, -, htcfg, -⟩ := reverseReversesLanes s r r hvalid
  obtain ⟨u, hu, -, hulane, -, -, -, -, hucfg, -⟩ := reverseReversesLanes t r r htvalid
  rw [htcfg] at hulane
  refine ⟨t, u, ht, hu, State.lanes_ext (hucfg.trans htcfg) fun i hi => ?_⟩
  rw [hulane i hi, htlane _ (by omega), show s.cfg.w - 1 - (s.cfg.w - 1 - i) = i by omega]

/-- Settles O53: rows and columns are exchanged twice, and V[W] to V[15] are left alone. -/
theorem transposeTwiceIsIdentity : Obligations.TransposeTwiceIsIdentity := by
  intro s hvalid
  obtain ⟨t, ht, htlane, htregs, -, -, -, htcfg, -⟩ := transposeExchangesRowsAndColumns s hvalid
  obtain ⟨u, hu, hulane, huregs, -, -, -, hucfg, -⟩ :=
    transposeExchangesRowsAndColumns t fun r hr => (htlane r r (htcfg ▸ hr) (htcfg ▸ hr)).1
  rw [htcfg] at hulane huregs
  have hcfg : u.cfg = s.cfg := hucfg.trans htcfg
  refine ⟨t, u, ht, hu, fun r => ?_⟩
  by_cases hr : r.val < s.cfg.w
  · refine State.lanes_ext hcfg fun i hi => ?_
    have hi16 : i < 16 := hi.trans_le s.cfg.w_le
    rw [(hulane r ⟨i, hi16⟩ hr hi).2, (htlane ⟨i, hi16⟩ r hi hr).2]
  · rw [← mem_blockRegs] at hr
    exact State.lanes_congr r hcfg ((huregs r hr).trans (htregs r hr))

/-- Settles O54: after one MINMAX the lanes are in order, so that the second finds nothing to exchange. -/
theorem minMaxTwiceIsOnce : Obligations.MinMaxTwiceIsOnce := by
  intro s va vb hne ha hb
  obtain ⟨t, ht, hta, htb, htlane, -, -, -, -, htcfg, -⟩ := minMaxComparesLanes s va vb hne ha hb
  obtain ⟨u, hu, -, -, hulane, huregs, -, -, -, hucfg, -⟩ := minMaxComparesLanes t va vb hne hta htb
  have hkeep (i : Nat) (hi : i < t.cfg.w) : u.lane va i = t.lane va i ∧ u.lane vb i = t.lane vb i := by
    obtain ⟨humin, humax, -⟩ := hulane i hi
    obtain ⟨-, -, hle⟩ := htlane i (htcfg ▸ hi)
    rw [← htcfg] at hle
    exact ⟨humin.trans (if_pos hle), humax.trans (if_pos hle)⟩
  refine ⟨t, u, ht, hu, fun r => ?_⟩
  by_cases hr : r ∈ [va, vb]
  · rcases List.mem_pair.mp hr with rfl | rfl
    · exact State.lanes_ext hucfg fun i hi => (hkeep i hi).1
    · exact State.lanes_ext hucfg fun i hi => (hkeep i hi).2
  · exact State.lanes_congr r hucfg (huregs r hr)

end Sys2Proof.Machine
end

section
/-! Rule R93 (a), the lanes as a rearrangement, and rule R94, MASKEDMINMAX in terms of MINMAX and REVERSE. -/

namespace Sys2Proof.Machine

/-! ### Lists after MINMAX and MASKEDMINMAX -/

section
variable {s : State} {va vb : RegNum}

theorem exec_minMax (hne : va ≠ vb) (ha : s.valid va = true) (hb : s.valid vb = true) :
    ∃ t, exec (.minMax va vb) s = .next t ∧ t.valid vb = true ∧
      t.lanes va = (minMaxLanes s.cfg (s.lanes va) (s.lanes vb)).1 ∧
      t.lanes vb = (minMaxLanes s.cfg (s.lanes va) (s.lanes vb)).2 ∧ CountedOnly s t := by
  have he := effect_minMax hne ha hb
  exact ⟨_, exec_of_effect he, (s.valid_writePair va vb _).2, (s.lanes_writePair hne (by simp) (by simp)).1,
    (s.lanes_writePair hne (by simp) (by simp)).2, he.countedOnly⟩

theorem exec_maskedMinMax {pat : PatNum} (hp : pat.val ≤ s.cfg.logw) (hne : va ≠ vb) (ha : s.valid va = true)
    (hb : s.valid vb = true) :
    ∃ t, exec (.maskedMinMax va vb pat) s = .next t ∧
      t.lanes va = (minMaxLanes s.cfg (s.lanes va) (permuteLanes pat.val (s.lanes vb))).1 ∧
      t.lanes vb = permuteLanes pat.val (minMaxLanes s.cfg (s.lanes va) (permuteLanes pat.val (s.lanes vb))).2 ∧
      CountedOnly s t := by
  have he := effect_maskedMinMax hp hne ha hb
  exact ⟨_, exec_of_effect he, (s.lanes_writePair hne (by simp) (by simp)).1,
    (s.lanes_writePair hne (by simp) (by simp)).2, he.countedOnly⟩

end

/-! ### Rearrangement -/

/-- MASKEDMINMAX rearranges the lanes of its two registers, since PI_p and MINMAX do. -/
theorem maskedMinMax_perm {s : State} {va vb : RegNum} {pat : PatNum} (hp : pat.val ≤ s.cfg.logw) (hne : va ≠ vb)
    (ha : s.valid va = true) (hb : s.valid vb = true) :
    ∃ t, exec (.maskedMinMax va vb pat) s = .next t ∧ (t.lanes va ++ t.lanes vb).Perm (s.lanes va ++ s.lanes vb) := by
  obtain ⟨t, ht, hta, htb, -⟩ := exec_maskedMinMax hp hne ha hb
  refine ⟨t, ht, ?_⟩
  rw [hta, htb]
  exact ((permuteLanes_perm hp (by simp)).append_left _).trans <|
    (minMaxLanes_perm (by simp)).trans ((permuteLanes_perm hp (by simp)).append_left _)

/-- The numbers of the registers V[0] to V[W-1]. -/
theorem map_val_blockRegs (c : Config) : (blockRegs c).map Fin.val = List.range c.w := by
  have hsplit : List.range 16 = List.range c.w ++ (List.range (16 - c.w)).map (c.w + ·) := by
    rw [← List.range_add, Nat.add_sub_cancel' c.w_le]
  have hfilter := List.filter_map (f := Fin.val) (p := fun r => decide (r < c.w)) (l := List.finRange 16)
  rw [List.map_coe_finRange_eq_range, hsplit, List.filter_append, List.filter_eq_self.mpr (by simp),
    List.filter_eq_nil_iff.mpr (by simp), List.append_nil] at hfilter
  exact hfilter.symm

/-- The entries of a matrix row by row are a rearrangement of those column by column. -/
theorem flatMap_map_comm_perm {α β : Type} (l : List α) (f : α → α → β) :
    (l.flatMap fun p => l.map fun q => f p q).Perm (l.flatMap fun p => l.map fun q => f q p) := by
  rw [← Multiset.coe_eq_coe, ← Multiset.coe_bind, ← Multiset.coe_bind]
  exact Multiset.bind_map_comm (l : Multiset α) (l : Multiset α)

/-- The lanes of a register, numbered by the registers V[0] to V[W-1]. -/
theorem State.lanes_eq_map_blockRegs {s : State} {c : Config} (hcfg : s.cfg = c) (r : RegNum) :
    s.lanes r = (blockRegs c).map fun q => s.lane r q.val := by
  rw [State.lanes, hcfg, ← map_val_blockRegs, List.map_map]
  rfl

theorem transpose_perm {s : State} (hvalid : ∀ r : RegNum, r.val < s.cfg.w → s.valid r = true) :
    ∃ t, exec .transpose s = .next t ∧
      ((blockRegs s.cfg).flatMap t.lanes).Perm ((blockRegs s.cfg).flatMap s.lanes) := by
  obtain ⟨t, ht, hlane, -, -, -, -, hcfg, -⟩ := transposeExchangesRowsAndColumns s hvalid
  have hrows : (blockRegs s.cfg).flatMap t.lanes =
      (blockRegs s.cfg).flatMap fun p => (blockRegs s.cfg).map fun q => s.lane q p.val := by
    refine List.flatMap_congr fun p hp => ?_
    rw [State.lanes_eq_map_blockRegs hcfg]
    exact List.map_congr_left fun q hq => (hlane p q (mem_blockRegs.mp hp) (mem_blockRegs.mp hq)).2
  refine ⟨t, ht, ?_⟩
  rw [hrows, funext (State.lanes_eq_map_blockRegs (s := s) rfl)]
  exact flatMap_map_comm_perm _ fun p q => s.lane q p.val

/-- Settles O55: MINMAX and MASKEDMINMAX exchange pairs of lanes, REVERSE reverses a list and TRANSPOSE reads the
matrix by columns. -/
theorem comparatorsPermuteLanes : Obligations.ComparatorsPermuteLanes := by
  refine ⟨fun s va vb pat i hi hwf ha hb => ?_, fun s vd vs hvalid => ?_, fun s => transpose_perm⟩
  · rcases List.mem_pair.mp hi with rfl | rfl
    · have hne : va ≠ vb := by simpa [Instr.wf, Instr.distinctRegs, Instr.patternInRange] using hwf
      obtain ⟨t, ht, -, hta, htb, -⟩ := exec_minMax hne ha hb
      refine ⟨t, ht, ?_⟩
      rw [hta, htb]
      exact minMaxLanes_perm (by simp)
    · obtain ⟨hne, hp⟩ : va ≠ vb ∧ pat.val ≤ s.cfg.logw := by
        simpa [Instr.wf, Instr.distinctRegs, Instr.patternInRange] using hwf
      exact maskedMinMax_perm hp hne ha hb
  · refine ⟨_, exec_reverse vd hvalid, ?_⟩
    rw [State.lanes_count, State.lanes_writeReg_same _ _ (by simp)]
    exact List.reverse_perm _

/-! ### MASKEDMINMAX in terms of MINMAX -/

theorem execSeq_cons_of_next {i : Instr} {is : List Instr} {s t : State} (h : exec i s = .next t) :
    execSeq (i :: is) s = execSeq is t := by
  simp [execSeq, h]

section
variable {s : State} {va vb : RegNum} (hne : va ≠ vb) (ha : s.valid va = true) (hb : s.valid vb = true)
include hne ha hb

/-- Rule R94 (a). -/
theorem exec_maskedMinMax_zero : exec (.maskedMinMax va vb 0) s = exec (.minMax va vb) s := by
  have he := effect_maskedMinMax (pat := 0) (Nat.zero_le _) hne ha hb
  rw [Fin.val_zero, permuteLanes_zero, permuteLanes_zero] at he
  rw [exec_of_effect he, exec_of_effect (effect_minMax hne ha hb)]

/-- The three commands of rule R94 (b). -/
theorem execSeq_reverse_minMax_reverse :
    ∃ u, execSeq [.reverse vb vb, .minMax va vb, .reverse vb vb] s = .next u ∧
      u.lanes va = (minMaxLanes s.cfg (s.lanes va) (s.lanes vb).reverse).1 ∧
      u.lanes vb = (minMaxLanes s.cfg (s.lanes va) (s.lanes vb).reverse).2.reverse ∧ u.cmdcnt = s.cmdcnt + 3 := by
  have hrev := exec_reverse vb hb
  obtain ⟨t, ht, htb, hta, htlb, htcnt, -, htcfg, -⟩ :=
    exec_minMax (s := (s.writeReg vb (s.lanes vb).reverse).count) hne
      (by rw [State.valid_count, State.valid_writeReg_other _ _ hne, ha]) (by simp)
  have hin : (s.writeReg vb (s.lanes vb).reverse).lanes vb = (s.lanes vb).reverse := s.lanes_writeReg_same vb (by simp)
  rw [State.lanes_count, State.lanes_count, State.lanes_writeReg_other _ _ hne, hin, State.count_cfg,
    State.writeReg_cfg] at hta htlb
  refine ⟨(t.writeReg vb (t.lanes vb).reverse).count, ?_, ?_, ?_, ?_⟩
  · rw [execSeq_cons_of_next hrev, execSeq_cons_of_next ht, execSeq_cons_of_next (exec_reverse vb htb)]
    rfl
  · rw [State.lanes_count, State.lanes_writeReg_other _ _ hne, hta]
  · rw [State.lanes_count, State.lanes_writeReg_same _ _ (by simp), htlb]
  · rw [State.count_cmdcnt, State.writeReg_cmdcnt, htcnt, State.count_cmdcnt, State.writeReg_cmdcnt, BitVec.add_assoc,
      BitVec.add_assoc]
    rfl

end

/-- Permuting the lanes a register reads as, lane by lane. -/
theorem permuteLanes_lanes (s : State) (r : RegNum) {p : Nat} (hp : p ≤ s.cfg.logw) :
    permuteLanes p (s.lanes r) = (List.range s.cfg.w).map fun i => s.lane r (patternLane p i) := by
  rw [permuteLanes, State.length_lanes]
  exact List.map_congr_left fun i hi => s.getD_lanes r _ (patternLane_lt hp (List.mem_range.mp hi))

theorem logw_lt (c : Config) : c.logw < 16 := Nat.lt_two_pow_self.trans_le (c.w_eq_two_pow ▸ c.w_le)

/-- Settles O56: PI_0 is the identity, PI_LOGW the permutation of REVERSE, and MASKEDMINMAX is a MINMAX between two
permutations. -/
theorem maskedPatternIdentities : Obligations.MaskedPatternIdentities := by
  intro s va vb hne ha hb
  refine ⟨exec_maskedMinMax_zero hne ha hb, ?_, fun pat hp => ?_⟩
  · have hlogw : (Fin.ofNat 16 s.cfg.logw).val = s.cfg.logw := Nat.mod_eq_of_lt (logw_lt s.cfg)
    obtain ⟨t, ht, hta, htb, htcnt, -⟩ := exec_maskedMinMax hlogw.le hne ha hb
    obtain ⟨u, hu, hua, hub, hucnt⟩ := execSeq_reverse_minMax_reverse hne ha hb
    rw [hlogw, permuteLanes_logw (s.length_lanes vb)] at hta htb
    rw [permuteLanes_logw (by simp)] at htb
    exact ⟨t, u, ht, hu, hta.trans hua.symm, htb.trans hub.symm, htcnt, hucnt⟩
  · obtain ⟨t, ht, hta, htb, -, -, htcfg, -⟩ := exec_maskedMinMax hp hne ha hb
    rw [← permuteLanes_lanes s vb hp]
    obtain ⟨u, hu, -, hua, hub, -, -, hucfg, -⟩ :=
      exec_minMax (s := s.writeReg vb (permuteLanes pat.val (s.lanes vb))) hne
        (by rw [State.valid_writeReg_other _ _ hne, ha]) (by simp)
    rw [State.lanes_writeReg_other _ _ hne, State.lanes_writeReg_same _ _ (by simp), State.writeReg_cfg] at hua hub
    refine ⟨t, u, ht, hu, hta.trans hua.symm, fun i hi => ?_⟩
    have hπ := patternLane_lt hp hi
    rw [← t.getD_lanes vb i (htcfg ▸ hi), ← u.getD_lanes vb _ (hucfg ▸ hπ), htb, hub, getD_permuteLanes _ (by simpa)]

end Sys2Proof.Machine
end

section
/-! LoadRow and StoreRow are inverse (rule R93 (e)): STOREREG then LOADREG, and LOADREG then STOREREG. -/

namespace Sys2Proof.Machine

/-! ### Elements -/

/-- MemRead of bytes that are those of a value gives the value, cut to the bytes read. -/
theorem memRead_of_bytes {m : Memory} {a n v : Nat} (h : ∀ k < n, (m.read (a + k)).toNat = v / 256 ^ k % 256) :
    memRead m a n = v % 256 ^ n := by
  induction n generalizing a v with
  | zero => simp [memRead, Nat.mod_one]
  | succ n ih =>
    have hhead : (m.read a).toNat = v % 256 := by simpa using h 0 (by omega)
    have htail (k : Nat) (hk : k < n) : (m.read (a + 1 + k)).toNat = v / 256 / 256 ^ k % 256 := by
      rw [Nat.div_div_eq_div_mul, ← Nat.pow_succ', Nat.add_assoc, Nat.add_comm 1 k]
      exact h (k + 1) (by omega)
    rw [memRead, hhead, ih htail, Nat.pow_succ', Nat.mod_mul]

/-- Byte k of the number MemRead gives is the byte at `a + k` (rule R40). -/
theorem memRead_byte {m : Memory} {a n k : Nat} (hk : k < n) :
    memRead m a n / 256 ^ k % 256 = (m.read (a + k)).toNat := by
  induction n generalizing a k with
  | zero => omega
  | succ n ih =>
    have hbyte : (m.read a).toNat < 256 := (m.read a).isLt
    cases k with
    | zero =>
      rw [memRead, Nat.pow_zero, Nat.div_one, Nat.add_mul_mod_self_left, Nat.mod_eq_of_lt hbyte, Nat.add_zero]
    | succ k =>
      rw [memRead, Nat.pow_succ', ← Nat.div_div_eq_div_mul, Nat.add_mul_div_left _ _ (by omega),
        Nat.div_eq_of_lt hbyte, Nat.zero_add, ih (by omega), Nat.add_assoc, Nat.add_comm 1 k]

/-! ### Rows -/

/-- A row of elements of EBITS bits is read back as it was stored. -/
theorem loadRow_storeRow {c : Config} {l : List Elem} (hl : RowWf c l) (m : Memory) (a : Nat) :
    loadRow c (storeRow c m a l) a = l := by
  obtain ⟨hlen, hmem⟩ := hl
  refine eq_of_getD_eq (by simp [hlen]) fun i hi => BitVec.eq_of_toNat_eq ?_
  rw [hlen] at hi
  have helem : (l.getD i 0).toNat < 256 ^ c.ebytes := c.pow_ebytes ▸ isElem_getD hmem i
  rw [getD_loadRow _ _ _ hi, toNat_readElem, memRead_of_bytes fun _ hk => storeRow_read_inside c m a l hi hk,
    Nat.mod_eq_of_lt helem]

/-- Every byte of a row is a byte of one of its lanes. -/
theorem exists_lane_byte {c : Config} {n : Nat} (hn : n < c.vbytes) :
    ∃ i < c.w, ∃ k < c.ebytes, n = i * c.ebytes + k := by
  rw [c.vbytes_eq] at hn
  have hpos : 0 < c.ebytes := Nat.pos_of_lt_mul_left hn
  exact ⟨n / c.ebytes, Nat.div_lt_of_lt_mul (by rwa [Nat.mul_comm]), n % c.ebytes, Nat.mod_lt _ hpos,
    (Nat.div_add_mod' n c.ebytes).symm⟩

/-- Storing a row where it was loaded from leaves every byte as it reads. -/
theorem storeRow_loadRow_read (c : Config) (m : Memory) (a b : Nat) :
    (storeRow c m a (loadRow c m a)).read b = m.read b := by
  by_cases hin : a ≤ b ∧ b - a < c.vbytes
  · obtain ⟨hle, hlt⟩ := hin
    obtain ⟨i, hi, k, hk, hik⟩ := exists_lane_byte hlt
    obtain rfl : b = a + i * c.ebytes + k := by omega
    refine BitVec.eq_of_toNat_eq ?_
    rw [storeRow_read_inside _ _ _ _ hi hk, getD_loadRow _ _ _ hi, toNat_readElem, memRead_byte hk]
  · exact storeRow_read_outside _ _ _ _ _ (by omega)

/-! ### STOREREG and LOADREG at one address -/

/-- Settles O32: the lanes stored are elements of EBITS bits, by the invariant, and are read back. -/
theorem storeThenLoadReproduces : Obligations.StoreThenLoadReproduces := by
  intro s vs vd addr hinv hvalid hok
  have hstore : Effect (.storeReg vs addr) s _ := ⟨hvalid, hok, rfl⟩
  have hload : Effect (.loadReg vd addr) (s.setMem (storeRow s.cfg s.mem addr.toNat (s.lanes vs))).count _ :=
    ⟨hok, rfl⟩
  refine ⟨_, _, exec_of_effect hstore, exec_of_effect hload, ?_⟩
  rw [State.lanes_count, State.lanes_writeReg_same _ _ (length_loadRow _ _ _)]
  exact loadRow_storeRow (hinv.rowWf_lanes vs) _ _

/-- Settles O33: the register holds the row just loaded, so that the store writes each byte over itself. -/
theorem loadThenStoreKeepsMemory : Obligations.LoadThenStoreKeepsMemory := by
  intro s vd addr hok
  have hload : Effect (.loadReg vd addr) s _ := ⟨hok, rfl⟩
  have hstore : Effect (.storeReg vd addr) (s.writeReg vd (loadRow s.cfg s.mem addr.toNat)).count _ :=
    ⟨s.valid_writeReg_same vd _, hok, rfl⟩
  refine ⟨_, _, exec_of_effect hload, exec_of_effect hstore, fun b => ?_⟩
  rw [State.count_mem, State.setMem_mem, State.lanes_count, State.lanes_writeReg_same _ _ (length_loadRow _ _ _)]
  exact storeRow_loadRow_read _ _ _ b

end Sys2Proof.Machine
end

section
/-! The merge commands (rules R104 to R109): NET_MERGE(W) is the last phase of NET_SORT(2W), so that it sorts an
ascending half followed by a descending one; INTRASORT2, MASKEDINTRASORT2 and BITONICMERGE apply it. -/

namespace Sys2Proof.Machine

/-! ### NET_MERGE is the last phase of NET_SORT -/

/-- A stage of NET_MERGE is the stage of the last phase of NET_SORT at the same distance (rules R101 and R104). -/
theorem mergeStage_eq_sortStage (n q : Nat) : mergeStage (2 ^ n) (2 ^ q) = sortStage (2 ^ n) (2 ^ n) (2 ^ q) := by
  refine List.filterMap_congr fun i hi => ?_
  have hn : i.testBit n = false := Nat.testBit_lt_two_pow (List.mem_range.mp hi)
  simp only [lt_xor_two_pow_iff, Nat.and_two_pow, hn]
  cases hq : i.testBit q with
  | false => simp [xor_two_pow_of_testBit hq]
  | true => simp

theorem mergeNetwork_eq_sortPhase (p : Nat) : mergeNetwork p = sortPhase (2 ^ (p + 1)) p :=
  List.map_congr_left fun _ _ => mergeStage_eq_sortStage _ _

/-! ### It sorts an ascending half followed by a descending one -/

theorem isChain_iff_ascendingBits {b : List Bool} :
    (b.IsChain fun x y => x = true → y = true) ↔ AscendingBits (bits b) 0 b.length := by
  rw [List.isChain_iff_getElem]
  constructor
  · intro h x y hxy
    induction hxy with
    | refl => exact fun _ => id
    | @step y _ ih =>
      intro hy hx
      simpa [bits, hy] using h y hy (by simpa [bits, Nat.lt_of_succ_lt hy] using ih (Nat.lt_of_succ_lt hy) hx)
  · intro h x hx
    simpa [bits, hx, Nat.lt_of_succ_lt hx] using h x (x + 1) x.le_succ hx

section
variable {x y : List Bool}

theorem bits_append_left {i : Nat} (h : i < x.length) : bits (x ++ y) i = bits x i :=
  List.getD_append x y false i h

theorem bits_append_right (i : Nat) : bits (x ++ y) (x.length + i) = bits y i := by
  rw [bits, List.getD_append_right x y false _ (Nat.le_add_right _ _), Nat.add_sub_cancel_left, bits]

theorem bits_reverse {i : Nat} (h : i < y.length) : bits y.reverse i = bits y (y.length - 1 - i) :=
  congrFun (List.getD_reverse i h) false

theorem bits_of_length_le {i : Nat} (h : x.length ≤ i) : bits x i = false :=
  List.getD_eq_default x false h

/-- The first of two ascending lists followed by the second reversed stands as the phases of NET_SORT before the last
leave their blocks. -/
theorem ascendingBits_append_reverse {p : Nat} (hx : x.length = 2 ^ p) (hy : y.length = 2 ^ p)
    (hxasc : AscendingBits (bits x) 0 (2 ^ p)) (hyasc : AscendingBits (bits y) 0 (2 ^ p)) {a : Nat} (ha : 2 ^ p ∣ a) :
    AscendingBits (ascView p (bits (x ++ y.reverse))) a (2 ^ p) := by
  intro i j hij hj
  have hi : i < 2 ^ p := by omega
  simp only [ascView, testBit_add_of_dvd ha hi, testBit_add_of_dvd ha hj]
  obtain ⟨k, rfl⟩ := ha
  match k with
  | 0 =>
    rw [Nat.mul_zero, Nat.zero_add, Nat.zero_add, bits_append_left (hx ▸ hi), bits_append_left (hx ▸ hj)]
    simpa using hxasc i j hij hj
  | 1 =>
    rw [Nat.mul_one, ← hx, bits_append_right, bits_append_right, bits_reverse (by omega), bits_reverse (by omega), hy]
    have hdown := hyasc (2 ^ p - 1 - j) (2 ^ p - 1 - i) (by omega) (by omega)
    simpa [hx] using mt hdown
  | k + 2 =>
    have hbeyond (m : Nat) : bits (x ++ y.reverse) (2 ^ p * (k + 2) + m) = false :=
      bits_of_length_le (by simp only [List.length_append, List.length_reverse, hx, hy, Nat.mul_add]; omega)
    simp [hbeyond]

end

/-- NET_MERGE(2^p) sorts the bits of two ascending lists, the second reversed (rule R104). -/
theorem ascendingBits_mergeNetwork {p : Nat} {x y : List Bool} (hx : x.length = 2 ^ p) (hy : y.length = 2 ^ p)
    (hxasc : AscendingBits (bits x) 0 (2 ^ p)) (hyasc : AscendingBits (bits y) 0 (2 ^ p)) :
    AscendingBits (bits (applyNetwork cmpxBit (mergeNetwork p) (x ++ y.reverse))) 0 (2 ^ (p + 1)) := by
  have hlen : (x ++ y.reverse).length = 2 ^ (p + 1) := by
    rw [List.length_append, List.length_reverse, hx, hy, Nat.pow_succ', Nat.two_mul]
  have hmerge := ascView_applyNetwork hlen (le_refl (p + 1)) le_rfl
  have hbitonic := bitonic_of_ascending (fun _ => ascendingBits_append_reverse hx hy hxasc hyasc) (dvd_zero _)
  have hsorted := hmerge ▸ hbitonic.ascending_mergeBits (dvd_zero _)
  rw [mergeNetwork_eq_sortPhase]
  intro i j hij hj
  have hi : i < 2 ^ (p + 1) := by omega
  simpa [ascView, Nat.testBit_lt_two_pow hi, Nat.testBit_lt_two_pow hj, sortPhase] using hsorted i j hij hj

theorem ascendingBits_keyAbove {c : Config} {l : List Elem} (h : Ascending c l) (t : Int) :
    AscendingBits (bits (l.map (keyAbove c t))) 0 l.length := by
  have hbits : (l.map (keyAbove c t)).IsChain fun x y => x = true → y = true := by
    refine (List.isChain_map _).mpr (List.IsChain.imp (fun x y hxy => ?_) h)
    simpa [keyAbove] using fun hx => lt_of_lt_of_le hx hxy
  simpa using isChain_iff_ascendingBits.mp hbits

theorem applyNetwork_mergeNetwork_perm (c : Config) (a b : List Elem) :
    (applyNetwork (cmpx c) (mergeNetwork c.logw) (a ++ b.reverse)).Perm (a ++ b) :=
  (applyNetwork_cmpx_perm _ _ _).trans (b.reverse_perm.append_left a)

/-- NET_MERGE(W) makes of two ascending sequences of W elements, the second reversed, their ascending arrangement
(rule R105 (a)). -/
theorem isSortedOf_mergeNetwork {c : Config} {a b : List Elem} (ha : a.length = c.w) (hb : b.length = c.w)
    (hasc : Ascending c a) (hbsc : Ascending c b) :
    IsSortedOf c (applyNetwork (cmpx c) (mergeNetwork c.logw) (a ++ b.reverse)) (a ++ b) := by
  refine ⟨applyNetwork_mergeNetwork_perm c a b, ascending_of_keyAbove fun t => ?_⟩
  rw [c.w_eq_two_pow] at ha hb
  rw [map_applyNetwork (cmpxBit_keyAbove c t), List.map_append, List.map_reverse]
  refine isChain_iff_ascendingBits.mpr ?_
  have h := ascendingBits_mergeNetwork (by simpa using ha) (by simpa using hb) (ha ▸ ascendingBits_keyAbove hasc t)
    (hb ▸ ascendingBits_keyAbove hbsc t)
  simpa [ha, hb, Nat.pow_succ', Nat.two_mul] using h

/-! ### The merge commands -/

/-- The effect that the three merge commands share (rule R109 (a)), before the count. -/
def State.merge (s : State) (va vb : RegNum) : State :=
  s.writePair va vb (mergeLanes s.cfg (s.lanes va) (s.lanes vb))

/-- The registers of a merge, read one after the other, are the output of NET_MERGE (rule R104). -/
theorem State.lanes_merge (s : State) {va vb : RegNum} (hne : va ≠ vb) :
    (s.merge va vb).lanes va ++ (s.merge va vb).lanes vb =
      applyNetwork (cmpx s.cfg) (mergeNetwork s.cfg.logw) (s.lanes va ++ (s.lanes vb).reverse) := by
  have hla := s.length_lanes va
  have hlb := s.length_lanes vb
  obtain ⟨hva, hvb⟩ := s.lanes_writePair hne (length_mergeLanes_fst s.cfg _ _ hla hlb)
    (length_mergeLanes_snd s.cfg _ _ hla hlb)
  rw [State.merge, hva, hvb, mergeLanes_append]

section
variable {s : State} {va vb : RegNum} {i : Instr}
  (hi : i ∈ [Instr.intraSort2 va vb, Instr.maskedIntraSort2 va vb, Instr.bitonicMerge va vb])
include hi

theorem effect_merge (hne : va ≠ vb) (ha : s.valid va = true) (hb : s.valid vb = true) :
    Effect i s (s.merge va vb) := by
  fin_cases hi <;> exact ⟨hne, ha, hb, rfl⟩

theorem merge_leaves {u : State} (he : Effect i s u) :
    SameRegsExcept [va, vb] s u.count ∧ SameMemory s u.count ∧ CountedOnly s u.count := by
  fin_cases hi <;> exact he.leaves rfl

end

/-- Settles O42: the two registers hold the halves of what NET_MERGE gives, which comparators rearrange. -/
theorem mergeCommandsApplyNetwork : Obligations.MergeCommandsApplyNetwork := by
  intro s va vb i hi hne ha hb
  have he := effect_merge hi hne ha hb
  obtain ⟨hva, hvb⟩ := s.valid_writePair va vb (mergeLanes s.cfg (s.lanes va) (s.lanes vb))
  refine ⟨_, exec_of_effect he, hva, hvb, s.lanes_merge hne, ?_, merge_leaves hi he⟩
  rw [State.lanes_count, State.lanes_count, s.lanes_merge hne]
  exact applyNetwork_mergeNetwork_perm _ _ _

/-- Settles O43: NET_MERGE sorts what two ascending registers give it. -/
theorem mergeCommandsMergeSorted : Obligations.MergeCommandsMergeSorted := by
  intro s va vb i hi hne ha hb hasc hbsc
  have he := effect_merge hi hne ha hb
  refine ⟨_, exec_of_effect he, ?_, merge_leaves hi he⟩
  rw [State.lanes_count, State.lanes_count, s.lanes_merge hne]
  exact isSortedOf_mergeNetwork (s.length_lanes va) (s.length_lanes vb) hasc hbsc

/-- Settles O57: all three complete with the one effect, counted. -/
theorem mergeCommandsAgree : Obligations.MergeCommandsAgree := by
  intro s va vb hne ha hb
  have hexec (i : Instr)
      (hi : i ∈ [Instr.intraSort2 va vb, Instr.maskedIntraSort2 va vb, Instr.bitonicMerge va vb]) :=
    exec_of_effect (effect_merge hi hne ha hb)
  rw [hexec (.intraSort2 va vb) (by simp)]
  exact ⟨hexec _ (by simp), hexec _ (by simp)⟩

/-- Settles O58: the two INTRASORT commands leave each register ascending, which the merge asks for. -/
theorem sortBothThenMergeSorts : Obligations.SortBothThenMergeSorts := by
  intro s va vb hne ha hb
  obtain ⟨t, ht, htva, ⟨htperm, htasc⟩, htregs, -, -, -, htcfg, -⟩ := intraSortSorts s va va ha
  have htb := htregs vb (by simp [hne.symm])
  have htlb := State.lanes_congr vb htcfg htb
  obtain ⟨u, hu, huvb, ⟨huperm, huasc⟩, huregs, -, -, -, hucfg, -⟩ :=
    intraSortSorts t vb vb ((congrArg VReg.valid htb).trans hb)
  have hua := huregs va (by simp [hne])
  have hula := State.lanes_congr va hucfg hua
  rw [htlb] at huperm
  rw [htcfg] at hucfg huasc
  obtain ⟨r, hr, ⟨hrperm, hrasc⟩, -⟩ := mergeCommandsMergeSorted u va vb (.bitonicMerge va vb) (by simp) hne
    ((congrArg VReg.valid hua).trans htva) huvb (by rwa [hucfg, hula]) (by rwa [hucfg])
  refine ⟨r, ?_, ?_, hucfg ▸ hrasc⟩
  · rw [execSeq_cons_of_next ht, execSeq_cons_of_next hu, execSeq_cons_of_next hr]
    rfl
  · rw [hula] at hrperm
    exact hrperm.trans (htperm.append huperm)

/-- Settles O45: the stages of each network, computed. -/
theorem networksAsListed : Obligations.NetworksAsListed :=
  ⟨by decide, by decide, by decide, by decide, by decide, by decide⟩

end Sys2Proof.Machine
end

section
/-! Whether a command faults (rules R110, R130, R168): its checks read the instance and the valid bits, neither lanes
nor memory, and which registers it makes valid depends on the instruction alone. -/

namespace Sys2Proof.Machine

section
variable {i : Instr} {s t u : State}

theorem State.valid_writePair_of_mem (s : State) {va vb r : RegNum} (p : List Elem × List Elem) (hr : r ∈ [va, vb]) :
    (s.writePair va vb p).valid r = true := by
  obtain ⟨ha, hb⟩ := s.valid_writePair va vb p
  rcases List.mem_pair.mp hr with rfl | rfl
  · exact ha
  · exact hb

theorem State.valid_writeBlockRegs_of_mem (s : State) {r : RegNum} (rows : List (List Elem))
    (hr : r ∈ blockRegs s.cfg) : (s.writeBlockRegs rows).valid r = true := by
  rw [State.valid_eq, State.reg_writeBlockRegs, if_pos (mem_blockRegs.mp hr)]

/-- Every register that a command writes is valid after it (rule R22). -/
theorem Effect.valid_of_mem_targets (he : Effect i s u) {r : RegNum} (hr : r ∈ targets s.cfg i) :
    u.valid r = true := by
  cases i with
  | loadReg | reverse | intraSort =>
    obtain ⟨-, rfl⟩ := he
    obtain rfl := List.mem_singleton.mp hr
    exact s.valid_writeReg_same _ _
  | storeReg => cases hr
  | minMax | intraSort2 | maskedIntraSort2 | bitonicMerge =>
    obtain ⟨-, -, -, rfl⟩ := he
    exact State.valid_writePair_of_mem s _ hr
  | maskedMinMax =>
    obtain ⟨-, -, -, -, rfl⟩ := he
    exact State.valid_writePair_of_mem s _ hr
  | transpose =>
    obtain ⟨-, rfl⟩ := he
    exact State.valid_writeBlockRegs_of_mem s _ hr
  | sortBlock =>
    obtain ⟨-, -, -, rfl⟩ := he
    exact State.valid_writeBlockRegs_of_mem (s.setMem _) _ hr

/-- The valid registers after a command: those valid before it and those it writes (rule R22). -/
theorem Effect.valid_iff (he : Effect i s u) (r : RegNum) :
    u.valid r = true ↔ s.valid r = true ∨ r ∈ targets s.cfg i := by
  constructor
  · intro hu
    rcases he.writesOnly r with hsame | ⟨hr, -⟩
    · exact .inl ((congrArg VReg.valid hsame).symm.trans hu)
    · exact .inr hr
  · rintro (hs | hr)
    · exact he.writesOnly.valid hs
    · exact he.valid_of_mem_targets hr

/-- On two states with the same instance and valid bits a command takes the same fault, or completes on both. -/
theorem exec_alike (hcfg : t.cfg = s.cfg) (hvalid : ∀ r, t.valid r = s.valid r) :
    (∃ f, exec i s = .next (s.enterFault f (encode i)) ∧ exec i t = .next (t.enterFault f (encode i))) ∨
      ∃ u v, Effect i s u ∧ Effect i t v := by
  cases hwf : i.wf s.cfg with
  | false => exact .inl ⟨_, exec_not_wf hwf, exec_not_wf (hcfg ▸ hwf)⟩
  | true =>
    by_cases hsrc : ∃ r ∈ sources s.cfg i, s.valid r = false
    · have hsrc' : ∃ r ∈ sources t.cfg i, t.valid r = false := by simpa only [hcfg, hvalid] using hsrc
      exact .inl ⟨_, exec_unwritten hwf hsrc, exec_unwritten (hcfg ▸ hwf) hsrc'⟩
    have hall : ∀ r ∈ sources s.cfg i, s.valid r = true := by simpa using hsrc
    have hall' : ∀ r ∈ sources t.cfg i, t.valid r = true := by simpa only [hcfg, hvalid] using hall
    by_cases hacc : ∀ addr n, accessed s.cfg i = some (addr, n) → AddrOk s.cfg addr n
    · obtain ⟨u, hu⟩ := exists_effect hwf hall hacc
      obtain ⟨v, hv⟩ := exists_effect (hcfg ▸ hwf) hall' (hcfg ▸ hacc)
      exact .inr ⟨u, v, hu, hv⟩
    · push Not at hacc
      obtain ⟨addr, n, haddr, hbad⟩ := hacc
      cases herr : checkAddr s.cfg addr n with
      | ok x => exact absurd ((checkAddr_eq_ok _ _ _ _).mp herr) hbad
      | error f =>
        exact .inl ⟨f, exec_checkAddr_error hall haddr herr,
          exec_checkAddr_error hall' (hcfg ▸ haddr) (hcfg ▸ herr)⟩

end

/-- Settles O22: both states take the same fault entry, or both complete and the same registers become valid. -/
theorem faultsIndependentOfData : Obligations.FaultsIndependentOfData := by
  intro i s t s' t' hcfg hvalid hregs hcnt hs' ht'
  rcases exec_alike (i := i) hcfg hvalid with ⟨f, hs, ht⟩ | ⟨u, v, hu, hv⟩
  · cases hs'.symm.trans hs
    cases ht'.symm.trans ht
    exact ⟨⟨rfl, rfl, rfl, rfl⟩, hcnt, hvalid⟩
  · cases hs'.symm.trans (exec_of_effect hu)
    cases ht'.symm.trans (exec_of_effect hv)
    obtain ⟨hucnt, ⟨hufault, hucode, huaddr, hucmd⟩, -⟩ := hu.countedOnly
    obtain ⟨hvcnt, ⟨hvfault, hvcode, hvaddr, hvcmd⟩, -⟩ := hv.countedOnly
    obtain ⟨hfault, hcode, haddr, hcmd⟩ := hregs
    refine ⟨⟨?_, ?_, ?_, ?_⟩, ?_, fun r => ?_⟩
    · rw [hvfault, hufault, hfault]
    · rw [hvcode, hucode, hcode]
    · rw [hvaddr, huaddr, haddr]
    · rw [hvcmd, hucmd, hcmd]
    · rw [hvcnt, hucnt, hcnt]
    · rw [Bool.eq_iff_iff, State.valid_count, State.valid_count, hv.valid_iff, hu.valid_iff, hcfg, hvalid]

end Sys2Proof.Machine
end

section
/-! SORTBLOCK (rules R120 to R123): COLSORT sorts every column, each sorted column is stored as a row, and the rows of a
stored block are read back. -/

namespace Sys2Proof.Machine

/-! ### Networks on values with a property -/

section
variable {α β : Type} {Q : α → Prop} {cx : α → α → α × α}

/-- A compare-exchange that keeps a property, on the values that have it. -/
def cmpxWithin (hcx : ∀ a b, Q a → Q b → Q (cx a b).1 ∧ Q (cx a b).2) (a b : Subtype Q) : Subtype Q × Subtype Q :=
  (⟨(cx a b).1, (hcx a b a.2 b.2).1⟩, ⟨(cx a b).2, (hcx a b a.2 b.2).2⟩)

/-- A map that commutes with the compare-exchange where a property holds, which the compare-exchange keeps, commutes
with a network on sequences that have the property. -/
theorem map_applyNetwork_within {cx' : β → β → β × β} {f : α → β}
    (hcx : ∀ a b, Q a → Q b → Q (cx a b).1 ∧ Q (cx a b).2)
    (hf : ∀ a b, Q a → Q b → cx' (f a) (f b) = (f (cx a b).1, f (cx a b).2)) (net : Network) {s : List α}
    (hs : ∀ x ∈ s, Q x) : (applyNetwork cx net s).map f = applyNetwork cx' net (s.map f) := by
  lift s to List (Subtype Q) using hs
  have hval := map_applyNetwork (cx := cmpxWithin hcx) (cx' := cx) (f := Subtype.val) (fun _ _ => rfl) net s
  have hmap := map_applyNetwork (cx := cmpxWithin hcx) (cx' := cx') (f := f ∘ Subtype.val)
    (fun a b => hf a b a.2 b.2) net s
  rw [← hval, List.map_map, List.map_map, hmap]

end

/-! ### Matrices -/

/-- W rows of W elements, as V[0] to V[W-1] hold them (rule R120). -/
def IsMatrix (c : Config) (rows : List (List Elem)) : Prop := rows.length = c.w ∧ ∀ l ∈ rows, RowWf c l

section
variable {c : Config} {rows : List (List Elem)}

theorem IsMatrix.rowWf_getD (h : IsMatrix c rows) {r : Nat} (hr : r < c.w) : RowWf c (rows.getD r []) := by
  obtain ⟨hlen, hwf⟩ := h
  rw [List.getD_eq_getElem _ _ (hlen ▸ hr)]
  exact hwf _ (List.getElem_mem _)

theorem IsMatrix.applyNetwork (h : IsMatrix c rows) (net : Network) :
    IsMatrix c (applyNetwork (minMaxLanes c) net rows) :=
  ⟨(length_applyNetwork _ _ _).trans h.1, forall_mem_applyNetwork (fun _ _ => rowWf_minMaxLanes) net h.2⟩

theorem isMatrix_loadBlock (c : Config) (m : Memory) (a : Nat) : IsMatrix c (loadBlock c m a) := by
  refine ⟨length_loadBlock c m a, fun l hl => ?_⟩
  obtain ⟨r, -, rfl⟩ := List.mem_map.mp hl
  exact rowWf_loadRow c m _

theorem isMatrix_sortedBlockRows (c : Config) (m : Memory) (a : Nat) :
    IsMatrix c (sortedBlockRows c (loadBlock c m a)) :=
  ⟨length_sortedBlockRows _ _, rowWf_sortedBlockRows c m a⟩

end

/-! ### COLSORT sorts every column -/

/-- Column r of a matrix given by its rows. -/
def column (rows : List (List Elem)) (r : Nat) : List Elem := rows.map (·.getD r 0)

/-- COLSORT acts on each column as NET_SORT(W) on a register (rule R121). -/
theorem column_columnSort {c : Config} {rows : List (List Elem)} (h : IsMatrix c rows) {r : Nat} (hr : r < c.w) :
    column (columnSort c rows) r = sortLanes c (column rows r) :=
  map_applyNetwork_within (fun _ _ => rowWf_minMaxLanes)
    (fun a b ha hb => by
      obtain ⟨hmin, hmax⟩ := getD_minMaxLanes (c := c) (a := a) (b := b) (hr.trans_eq ha.1.symm) (hr.trans_eq hb.1.symm)
      rw [hmin, hmax, cmpx])
    _ h.2

/-- Row r of a transpose is column r. -/
theorem getD_transposeRows_eq_column {w : Nat} {rows : List (List Elem)} (hrows : rows.length = w) {r : Nat}
    (hr : r < w) : (transposeRows w rows).getD r [] = column rows r :=
  eq_of_getD_eq (by simp [transposeRows, column, hr, hrows]) fun j hj => by
    have hj : j < w := by simpa [column, hrows] using hj
    rw [getD_transposeRows _ _ hr hj]
    simp [column, hrows, hj]

/-! ### Blocks in memory -/

/-- Column r of a block is its stride-W sequence from element r on (rule R120). -/
theorem column_loadBlock (c : Config) (m : Memory) (a : Nat) {r : Nat} (hr : r < c.w) :
    column (loadBlock c m a) r = (List.range c.w).map fun j => readElem c m (a + (j * c.w + r) * c.ebytes) := by
  rw [column, loadBlock, List.map_map]
  refine List.map_congr_left fun j _ => ?_
  rw [Function.comp_apply, getD_loadRow _ _ _ hr, c.vbytes_eq, Nat.add_assoc, ← Nat.mul_assoc, ← Nat.add_mul]

/-- Row r that SORTBLOCK stores is column r of the block, sorted by NET_SORT(W). -/
theorem getD_sortedBlockRows (c : Config) (m : Memory) (a : Nat) {r : Nat} (hr : r < c.w) :
    (sortedBlockRows c (loadBlock c m a)).getD r [] = sortLanes c (column (loadBlock c m a) r) := by
  rw [sortedBlockRows, getD_transposeRows_eq_column (by simp) hr, column_columnSort (isMatrix_loadBlock c m a) hr]

/-- A row below the one stored reads as before. -/
theorem loadRow_storeRow_above (c : Config) (m : Memory) {a b : Nat} (l : List Elem) (h : a + c.vbytes ≤ b) :
    loadRow c (storeRow c m b l) a = loadRow c m a := by
  refine List.map_congr_left fun i hi => congrArg (BitVec.ofNat 64) (memRead_congr _ _ _ _ fun k hk => ?_)
  have hlane := lane_end_le c (List.mem_range.mp hi)
  exact storeRow_read_outside _ _ _ _ _ (by omega)

/-- The rows of a stored block are read back. -/
theorem loadRow_storeBlock {c : Config} (m : Memory) (a : Nat) {rows : List (List Elem)} (hrows : IsMatrix c rows)
    {r : Nat} (hr : r < c.w) :
    loadRow c (storeBlock c m a rows) (a + r * c.vbytes) = rows.getD r [] := by
  refine foldl_range_establishes (fun m' : Memory => loadRow c m' (a + r * c.vbytes) = rows.getD r []) hr
    (fun m' => loadRow_storeRow (hrows.rowWf_getD hr) m' _) (fun m' j hrj _ hm' => ?_) m
  have hle : (r + 1) * c.vbytes ≤ j * c.vbytes := Nat.mul_le_mul_right _ hrj
  rw [Nat.succ_mul] at hle
  rw [loadRow_storeRow_above c m' _ (by omega), hm']

/-! ### Registers that hold a matrix -/

/-- Reading V[k], for k below W, after a matrix has been written to V[0] to V[W-1]. -/
theorem State.read_writeBlockRegs (s : State) {rows : List (List Elem)} (hrows : IsMatrix s.cfg rows) {k : Nat}
    (hk : k < s.cfg.w) {r : RegNum} (hr : r.val = k) :
    (s.writeBlockRegs rows).valid r = true ∧ (s.writeBlockRegs rows).lanes r = rows.getD k [] := by
  have hreg : (s.writeBlockRegs rows).reg r = { lanes := rows.getD k [], valid := true } := by
    rw [State.reg_writeBlockRegs, hr, if_pos hk]
  refine ⟨congrArg VReg.valid hreg, ?_⟩
  rw [State.lanes_of_length _ _ (by rw [hreg]; exact (hrows.rowWf_getD hk).1), hreg]

/-- Settles O44: row r of the block stored, and V[r], are NET_SORT(W) of column r of the block loaded. -/
theorem sortBlockSortsColumns : Obligations.SortBlockSortsColumns := by
  intro s addr hok
  have he : Effect (.sortBlock addr) s _ := ⟨hok, _, rfl, rfl⟩
  obtain ⟨hregs, hmem, -, -⟩ := sortBlockFrame _ _ _ (exec_of_effect he)
  refine ⟨_, exec_of_effect he, fun r hr => ?_, hmem, hregs, he.countedOnly⟩
  have hrows := isMatrix_sortedBlockRows s.cfg s.mem addr.toNat
  rw [State.count_mem, State.writeBlockRegs_mem, State.setMem_mem, loadRow_storeBlock _ _ hrows hr]
  refine ⟨?_, (s.setMem _).read_writeBlockRegs hrows hr rfl⟩
  rw [getD_sortedBlockRows _ _ _ hr, ← column_loadBlock _ _ _ hr]
  exact isSortedOf_sortLanes (by simp [column])

end Sys2Proof.Machine
end

section
/-! Rule R124: the sequence of commands that has the effect of SORTBLOCK. The effects of its commands are composed
without their counts; the registers V[0] to V[W-1] hold the matrix that each phase leaves. -/

namespace Sys2Proof.Machine

/-! ### Sequences of effects -/

/-- The count replaced; every other field keeps its value. -/
def State.withCount (s : State) (n : Word) : State := { s with cmdcnt := n }

/-- No effect reads or writes the count (rule R27). -/
theorem Effect.withCount {i : Instr} {s u : State} (he : Effect i s u) (n : Word) :
    Effect i (s.withCount n) (u.withCount n) := by
  cases i with
  | loadReg | reverse | transpose | intraSort =>
    obtain ⟨h, rfl⟩ := he
    exact ⟨h, rfl⟩
  | storeReg =>
    obtain ⟨hs, hok, rfl⟩ := he
    exact ⟨hs, hok, rfl⟩
  | minMax | intraSort2 | maskedIntraSort2 | bitonicMerge =>
    obtain ⟨hne, ha, hb, rfl⟩ := he
    exact ⟨hne, ha, hb, rfl⟩
  | maskedMinMax =>
    obtain ⟨hne, hp, ha, hb, rfl⟩ := he
    exact ⟨hne, hp, ha, hb, rfl⟩
  | sortBlock =>
    obtain ⟨hok, rows, hrows, rfl⟩ := he
    exact ⟨hok, rows, hrows, rfl⟩

/-- The effects of instructions whose checks pass, one after another. -/
def EffectSeq (is : List Instr) (s u : State) : Prop :=
  match is with
  | [] => u = s
  | i :: rest => ∃ t, Effect i s t ∧ EffectSeq rest t u

theorem EffectSeq.append {is js : List Instr} {s t u : State} (h : EffectSeq is s t) (h' : EffectSeq js t u) :
    EffectSeq (is ++ js) s u := by
  induction is generalizing s with
  | nil => exact h ▸ h'
  | cons i is ih =>
    obtain ⟨r, hr, h⟩ := h
    exact ⟨r, hr, ih h⟩

/-- A sequence over 0 to n-1, by the state after each number of instructions. -/
theorem effectSeq_map_range {f : Nat → Instr} {σ : Nat → State} {n : Nat}
    (h : ∀ r < n, Effect (f r) (σ r) (σ (r + 1))) : EffectSeq ((List.range n).map f) (σ 0) (σ n) := by
  induction n with
  | zero => rfl
  | succ n ih =>
    rw [List.range_succ, List.map_append]
    exact (ih fun r hr => h r (by omega)).append ⟨_, h n (by omega), rfl⟩

/-- A sequence of effects is a run that completes, and every instruction is counted (rule R27). -/
theorem EffectSeq.execSeq_withCount {is : List Instr} {s u : State} (h : EffectSeq is s u) (n : Word) :
    execSeq is (s.withCount n) = .next (u.withCount (n + BitVec.ofNat 32 is.length)) := by
  induction is generalizing s n with
  | nil =>
    cases h
    simp [execSeq]
  | cons i is ih =>
    obtain ⟨t, ht, h⟩ := h
    have hcount : n + 1 + BitVec.ofNat 32 is.length = n + BitVec.ofNat 32 (i :: is).length := by
      rw [List.length_cons, Nat.add_comm, BitVec.ofNat_add, BitVec.add_assoc]
      rfl
    rw [execSeq_cons_of_next (exec_of_effect (ht.withCount n)), ← hcount]
    exact ih h (n + 1)

/-! ### The registers V[0] to V[W-1] as a matrix -/

theorem val_ofNat_of_lt_w {c : Config} {k : Nat} (hk : k < c.w) : (Fin.ofNat 16 k).val = k :=
  Nat.mod_eq_of_lt (hk.trans_le c.w_le)

/-- V[0] to V[k-1] written with the first k rows. -/
def State.writeRegsBelow (s : State) (k : Nat) (rows : List (List Elem)) : State :=
  { s with regs := Vector.ofFn fun r : Fin 16 =>
      if r.val < k then { lanes := rows.getD r.val [], valid := true } else s.reg r }

/-- The registers replaced; every other field keeps its value. -/
def State.setRegs (s : State) (regs : Vector VReg 16) : State := { s with regs := regs }

section
variable (s : State) (rows : List (List Elem))

/-! Which updates touch the registers alone. -/

@[simp] theorem State.setRegs_writeReg (r : RegNum) (l : List Elem) (v : Vector VReg 16) :
    (s.writeReg r l).setRegs v = s.setRegs v := rfl
@[simp] theorem State.setRegs_writeBlockRegs (v : Vector VReg 16) :
    (s.writeBlockRegs rows).setRegs v = s.setRegs v := rfl
@[simp] theorem State.setRegs_writeRegsBelow (k : Nat) (v : Vector VReg 16) :
    (s.writeRegsBelow k rows).setRegs v = s.setRegs v := rfl

variable {s} in
/-- States that differ at most in the registers are equal when those are. -/
theorem State.eq_of_reg_eq {t : State} (ht : ∀ v, t.setRegs v = s.setRegs v) (h : ∀ q, t.reg q = s.reg q) : t = s := by
  have hregs : t.regs = s.regs := Vector.ext fun i hi => h ⟨i, hi⟩
  calc t = t.setRegs t.regs := rfl
    _ = s.setRegs s.regs := by rw [ht, hregs]

theorem State.writeRegsBelow_w : s.writeRegsBelow s.cfg.w rows = s.writeBlockRegs rows := rfl

theorem State.reg_writeRegsBelow (k : Nat) (q : RegNum) :
    (s.writeRegsBelow k rows).reg q =
      if q.val < k then { lanes := rows.getD q.val [], valid := true } else s.reg q := by
  simp [State.writeRegsBelow, State.reg]

theorem State.writeRegsBelow_zero : s.writeRegsBelow 0 rows = s :=
  State.eq_of_reg_eq (by simp) fun q => by simp [State.reg_writeRegsBelow]

theorem State.writeRegsBelow_succ {k : Nat} (hk : k < s.cfg.w) :
    s.writeRegsBelow (k + 1) rows = (s.writeRegsBelow k rows).writeReg (Fin.ofNat 16 k) (rows.getD k []) := by
  refine State.eq_of_reg_eq (by simp) fun q => ?_
  have hq : q = Fin.ofNat 16 k ↔ q.val = k := by rw [Fin.ext_iff, val_ofNat_of_lt_w hk]
  rw [State.reg_writeReg, State.reg_writeRegsBelow, State.reg_writeRegsBelow]
  grind

theorem State.writeBlockRegs_writeBlockRegs (rows' : List (List Elem)) :
    (s.writeBlockRegs rows).writeBlockRegs rows' = s.writeBlockRegs rows' :=
  State.eq_of_reg_eq (by simp) fun q => by
    simp only [State.reg_writeBlockRegs, State.writeBlockRegs_cfg]
    split <;> rfl

variable {rows} in
theorem State.writeReg_writeBlockRegs (hlen : rows.length = s.cfg.w) {k : Nat} (hk : k < s.cfg.w) (l : List Elem) :
    (s.writeBlockRegs rows).writeReg (Fin.ofNat 16 k) l = s.writeBlockRegs (rows.set k l) := by
  refine State.eq_of_reg_eq (by simp) fun q => ?_
  have hval := val_ofNat_of_lt_w hk
  rw [State.reg_writeReg, State.reg_writeBlockRegs, State.reg_writeBlockRegs]
  by_cases hq : q = Fin.ofNat 16 k
  · rw [if_pos hq, hq, hval, if_pos hk]
    simp [hlen, hk]
  · have hne : k ≠ q.val := fun h => hq (Fin.ext (h.symm.trans hval.symm))
    rw [if_neg hq]
    simp [hne]

end

/-- A comparator between two different positions below n. -/
def Comparator.On (n : Nat) (p : Comparator) : Prop := p.1 < n ∧ p.2 < n ∧ p.1 ≠ p.2

/-- The first k rows stored, as `storeBlock` stores all W. -/
def storeRows (c : Config) (m : Memory) (a : Nat) (rows : List (List Elem)) (k : Nat) : Memory :=
  (List.range k).foldl (fun m r => storeRow c m (a + r * c.vbytes) (rows.getD r [])) m

theorem storeRows_w (c : Config) (m : Memory) (a : Nat) (rows : List (List Elem)) :
    storeRows c m a rows c.w = storeBlock c m a rows := rfl

theorem storeRows_succ (c : Config) (m : Memory) (a : Nat) (rows : List (List Elem)) (k : Nat) :
    storeRows c m a rows (k + 1) =
      storeRow c (storeRows c m a rows k) (a + k * c.vbytes) (rows.getD k []) := by
  rw [storeRows, List.range_succ, List.foldl_append]
  rfl

/-! ### The phases of the sequence -/

section
variable {s : State} {addr : Word}

/-- The address of a row of a block does not wrap, as MEM_BYTES is at most 2^32, and passes the checks (rules R7, R43). -/
theorem addrOk_row (hcfg : s.cfg.wf = true) (hok : AddrOk s.cfg addr s.cfg.blockBytes) {r : Nat} (hr : r < s.cfg.w) :
    (addr + BitVec.ofNat 32 (r * s.cfg.vbytes)).toNat = addr.toNat + r * s.cfg.vbytes ∧
      AddrOk s.cfg (addr + BitVec.ofNat 32 (r * s.cfg.vbytes)) s.cfg.vbytes := by
  obtain ⟨halign, hbound⟩ := hok
  have hmem : s.cfg.memBytes ≤ 2 ^ 32 := by simpa [Config.wf] using hcfg
  have hrow := row_end_le s.cfg hr
  have hpos := s.cfg.vbytes_pos
  have hnat : (addr + BitVec.ofNat 32 (r * s.cfg.vbytes)).toNat = addr.toNat + r * s.cfg.vbytes := by
    rw [BitVec.toNat_add, BitVec.toNat_ofNat, Nat.mod_eq_of_lt (a := r * s.cfg.vbytes) (by omega),
      Nat.mod_eq_of_lt (by omega)]
  refine ⟨hnat, ?_, ?_⟩
  · rw [hnat, Nat.add_mul_mod_self_right, halign]
  · omega

/-- The LOADREG commands read the block into V[0] to V[W-1]. -/
theorem effectSeq_loads (hcfg : s.cfg.wf = true) (hok : AddrOk s.cfg addr s.cfg.blockBytes) :
    EffectSeq
      ((List.range s.cfg.w).map fun r => .loadReg (Fin.ofNat 16 r) (addr + BitVec.ofNat 32 (r * s.cfg.vbytes))) s
      (s.writeBlockRegs (loadBlock s.cfg s.mem addr.toNat)) := by
  set rows := loadBlock s.cfg s.mem addr.toNat with hrows
  have hseq := effectSeq_map_range (σ := fun k => s.writeRegsBelow k rows) (n := s.cfg.w)
    (f := fun r => .loadReg (Fin.ofNat 16 r) (addr + BitVec.ofNat 32 (r * s.cfg.vbytes))) fun r hr => by
      obtain ⟨hnat, hrow⟩ := addrOk_row hcfg hok hr
      have hget : rows.getD r [] = loadRow s.cfg s.mem (addr.toNat + r * s.cfg.vbytes) := by
        simp [hrows, loadBlock, hr]
      refine ⟨hrow, ?_⟩
      rw [State.writeRegsBelow_succ _ _ hr, hget, hnat]
      rfl
  rwa [State.writeRegsBelow_zero, State.writeRegsBelow_w] at hseq

/-- STOREREG of one of the registers stores the row it holds. -/
theorem effect_storeReg_row (hcfg : s.cfg.wf = true) (hok : AddrOk s.cfg addr s.cfg.blockBytes)
    {rows : List (List Elem)} (hrows : IsMatrix s.cfg rows) {r : Nat} (hr : r < s.cfg.w) :
    Effect (.storeReg (Fin.ofNat 16 r) (addr + BitVec.ofNat 32 (r * s.cfg.vbytes))) (s.writeBlockRegs rows)
      ((s.setMem (storeRow s.cfg s.mem (addr.toNat + r * s.cfg.vbytes) (rows.getD r []))).writeBlockRegs rows) := by
  obtain ⟨hnat, hrow⟩ := addrOk_row hcfg hok hr
  obtain ⟨hvalid, hlanes⟩ := s.read_writeBlockRegs hrows hr (val_ofNat_of_lt_w hr)
  refine ⟨hvalid, hrow, ?_⟩
  rw [hlanes, hnat]
  rfl

/-- The STOREREG commands write V[0] to V[W-1] to the block. -/
theorem effectSeq_stores (hcfg : s.cfg.wf = true) (hok : AddrOk s.cfg addr s.cfg.blockBytes)
    {rows : List (List Elem)} (hrows : IsMatrix s.cfg rows) :
    EffectSeq
      ((List.range s.cfg.w).map fun r => .storeReg (Fin.ofNat 16 r) (addr + BitVec.ofNat 32 (r * s.cfg.vbytes)))
      (s.writeBlockRegs rows) ((s.setMem (storeBlock s.cfg s.mem addr.toNat rows)).writeBlockRegs rows) :=
  storeRows_w s.cfg s.mem addr.toNat rows ▸ effectSeq_map_range (n := s.cfg.w)
    (σ := fun k => (s.setMem (storeRows s.cfg s.mem addr.toNat rows k)).writeBlockRegs rows) fun r hr => by
      rw [storeRows_succ]
      exact effect_storeReg_row (s := s.setMem (storeRows s.cfg s.mem addr.toNat rows r)) hcfg hok hrows hr

end

/-! ### The matrix after each phase -/

section
variable {s : State} {rows : List (List Elem)}

/-- MINMAX of two of the registers is one comparator on the rows they hold (rule R121). -/
theorem effect_minMax_row (hrows : IsMatrix s.cfg rows) {p : Comparator} (hp : p.On s.cfg.w) :
    Effect (.minMax (Fin.ofNat 16 p.1) (Fin.ofNat 16 p.2)) (s.writeBlockRegs rows)
      (s.writeBlockRegs (compareAt (minMaxLanes s.cfg) rows p)) := by
  obtain ⟨hlo, hhi, hne⟩ := hp
  have hloval := val_ofNat_of_lt_w hlo
  have hhival := val_ofNat_of_lt_w hhi
  obtain ⟨hlovalid, hlolanes⟩ := s.read_writeBlockRegs hrows hlo hloval
  obtain ⟨hhivalid, hhilanes⟩ := s.read_writeBlockRegs hrows hhi hhival
  have hget {k : Nat} (hk : k < s.cfg.w) : rows[k]? = some (rows.getD k []) := by simp [hrows.1, hk]
  refine ⟨fun h => hne (by rw [← hloval, h, hhival]), hlovalid, hhivalid, ?_⟩
  rw [State.writePair, hlolanes, hhilanes, State.writeBlockRegs_cfg, s.writeReg_writeBlockRegs hrows.1 hlo,
    s.writeReg_writeBlockRegs (by rw [List.length_set, hrows.1]) hhi, compareAt_eq (hget hlo) (hget hhi)]

/-- A MINMAX for each of a list of comparators applies them to the rows in their order. -/
theorem effectSeq_minMax (hrows : IsMatrix s.cfg rows) {ps : List Comparator} (hps : ∀ p ∈ ps, p.On s.cfg.w) :
    EffectSeq (ps.map fun p => .minMax (Fin.ofNat 16 p.1) (Fin.ofNat 16 p.2)) (s.writeBlockRegs rows)
      (s.writeBlockRegs (ps.foldl (compareAt (minMaxLanes s.cfg)) rows)) := by
  induction ps generalizing rows with
  | nil => rfl
  | cons p ps ih =>
    exact ⟨_, effect_minMax_row hrows (hps p (by simp)), ih (hrows.applyNetwork [[p]]) fun q hq => hps q (by simp [hq])⟩

/-- TRANSPOSE leaves the transpose of the matrix the registers hold. -/
theorem effect_transpose_rows (hrows : IsMatrix s.cfg rows) :
    Effect .transpose (s.writeBlockRegs rows) (s.writeBlockRegs (transposeRows s.cfg.w rows)) := by
  refine ⟨blockRegsValid_iff.mpr fun r hr => (s.read_writeBlockRegs hrows hr rfl).1, ?_⟩
  have hread : ((List.range s.cfg.w).map fun r => (s.writeBlockRegs rows).lanes (Fin.ofNat 16 r)) = rows := by
    refine List.ext_getElem (by simp [hrows.1]) fun k hk hk' => ?_
    have hkw : k < s.cfg.w := hrows.1 ▸ hk'
    rw [List.getElem_map, List.getElem_range, (s.read_writeBlockRegs hrows hkw (val_ofNat_of_lt_w hkw)).2,
      List.getD_eq_getElem]
  rw [State.writeBlockRegs_cfg, hread, State.writeBlockRegs_writeBlockRegs]

end

/-! ### The comparators of NET_SORT -/

/-- Every comparator of NET_SORT is between two positions of the sequence (rule R101). -/
theorem sortNetwork_on {n : Nat} : ∀ p ∈ (sortNetwork n).flatten, p.On (2 ^ n) := by
  intro p hp
  simp only [sortNetwork, sortPhase, sortStage, List.mem_flatten, List.mem_flatMap, List.mem_map, List.mem_range] at hp
  obtain ⟨st, ⟨k, hk, q, hq, rfl⟩, hp⟩ := hp
  simp only [List.mem_filterMap, List.mem_range, Option.ite_none_right_eq_some, Option.some.injEq] at hp
  obtain ⟨i, hi, hlt, rfl⟩ := hp
  have hj : 2 ^ (k - q) < 2 ^ n := Nat.pow_lt_pow_right (by omega) (by omega)
  have hx := Nat.xor_lt_two_pow hi hj
  split
  · exact ⟨hi, hx, hlt.ne⟩
  · exact ⟨hx, hi, hlt.ne'⟩

/-- How many comparators NET_SORT(W) has, for W = 4, 8 and 16 (rule R124). -/
theorem length_sortNetwork (c : Config) :
    (sortNetwork c.logw).flatten.length = c.w / 2 * (c.logw * (c.logw + 1) / 2) := by
  have hcount : ∀ n ∈ [2, 3, 4], (sortNetwork n).flatten.length = 2 ^ n / 2 * (n * (n + 1) / 2) := by decide
  have hlogw : c.logw ∈ [2, 3, 4] := by
    rcases c with ⟨_ | _, _ | _ | _ | _, n⟩ <;> simp [Config.logw]
  rw [c.w_eq_two_pow]
  exact hcount _ hlogw

/-! ### SORTBLOCK as a sequence -/

theorem columnSort_eq_foldl (c : Config) (rows : List (List Elem)) :
    columnSort c rows = (sortNetwork c.logw).flatten.foldl (compareAt (minMaxLanes c)) rows :=
  List.foldl_flatten.symm

/-- The sequence of rule R124 has the effect of SORTBLOCK. -/
theorem effectSeq_sortBlockProgram {s u : State} {addr : Word} (hcfg : s.cfg.wf = true)
    (he : Effect (.sortBlock addr) s u) : EffectSeq (sortBlockProgram s.cfg addr) s u := by
  obtain ⟨hok, rows, rfl, rfl⟩ := he
  have hload := isMatrix_loadBlock s.cfg s.mem addr.toNat
  have hon : ∀ p ∈ (sortNetwork s.cfg.logw).flatten, p.On s.cfg.w := by
    rw [s.cfg.w_eq_two_pow]
    exact sortNetwork_on
  have hminMax := effectSeq_minMax hload hon
  rw [← columnSort_eq_foldl] at hminMax
  have htranspose : EffectSeq [.transpose] (s.writeBlockRegs (columnSort s.cfg (loadBlock s.cfg s.mem addr.toNat))) _ :=
    ⟨_, effect_transpose_rows (hload.applyNetwork _), rfl⟩
  have hstores := effectSeq_stores hcfg hok (isMatrix_sortedBlockRows s.cfg s.mem addr.toNat)
  exact (((effectSeq_loads hcfg hok).append hminMax).append htranspose).append hstores

theorem length_sortBlockProgram (c : Config) (addr : Word) :
    (sortBlockProgram c addr).length = 2 * c.w + c.w / 2 * (c.logw * (c.logw + 1) / 2) + 1 := by
  rw [← length_sortNetwork]
  simp only [sortBlockProgram, List.length_append, List.length_map, List.length_range, List.length_singleton]
  omega

/-- Settles O59: the sequence reaches the effect of SORTBLOCK phase by phase, and counts each of its commands. -/
theorem sortBlockIsItsProgram : Obligations.SortBlockIsItsProgram := by
  intro s addr hcfg hok
  have he : Effect (.sortBlock addr) s _ := ⟨hok, _, rfl, rfl⟩
  exact ⟨_, _, exec_of_effect he, (effectSeq_sortBlockProgram hcfg he).execSeq_withCount s.cmdcnt, rfl, rfl,
    ⟨rfl, rfl, rfl, rfl⟩, length_sortBlockProgram _ _, rfl⟩

end Sys2Proof.Machine
end

section
/-! Faults and the halted state (rules R130 to R137 and R147): which words are illegal, which check each fault comes
from, the address it records, and what the host can do while FAULT = 1. -/

namespace Sys2Proof.Machine

/-! ### Illegal words -/

/-- The word of an ill-formed instruction names one register twice or a pattern the instance lacks (rule R131). -/
theorem illegalWord_encode {c : Config} {i : Instr} (hwf : i.wf c = false) : IllegalWord c (encode i) := by
  cases i with
  | loadReg | storeReg | reverse | transpose | intraSort | sortBlock => cases hwf
  | minMax | intraSort2 | maskedIntraSort2 | bitonicMerge =>
    simpa [Instr.wf, Instr.distinctRegs, Instr.patternInRange, IllegalWord, encode] using hwf
  | maskedMinMax va vb pat =>
    have hcause : va = vb ∨ c.logw < pat.val := by
      simpa [Instr.wf, Instr.distinctRegs, Instr.patternInRange, or_iff_not_imp_left] using hwf
    simpa [IllegalWord, encode] using hcause

theorem eq_false_of_whenUnusedZero_eq_error {b : Bool} {i : Instr} {e : DecodeError}
    (h : whenUnusedZero b i = .error e) : b = false := by
  cases b with
  | false => rfl
  | true => cases h

/-- A word whose opcode or unused fields stop the decoder has an unassigned opcode or an unused field that is not zero
(rules R62, R66 and R131). -/
theorem illegalWord_of_decodeFields_error {c : Config} {w : CmdWord} {e : DecodeError}
    (h : decodeFields (fieldOp w) (fieldRA w) (fieldRB w) (fieldPat w) (fieldAddr w) = .error e) :
    IllegalWord c w := by
  unfold decodeFields at h
  split at h
  case h_12 =>
    have hop : (fieldOp w).toNat < 0x01 ∨ 0x0B < (fieldOp w).toNat := by grind
    exact .inr (or_assoc.mp (.inl hop))
  all_goals
    next hcode =>
      have hunused := eq_false_of_whenUnusedZero_eq_error h
      by_contra hlegal
      simp_all [IllegalWord]

/-- A word the decoder refuses has one of the causes of ILLEGAL (rules R67 and R131). -/
theorem illegalWord_of_decode_error {c : Config} {w : CmdWord} {e : DecodeError} (h : decode c w = .error e) :
    IllegalWord c w := by
  unfold decode at h
  split at h
  · next hzero => exact .inl hzero
  · next hzero =>
    split at h
    · next e' he => exact illegalWord_of_decodeFields_error he
    · next i hi =>
      have hword : encode i = w := (encode_of_decodeFields hi).trans (wordOf_fields w (not_not.mp hzero))
      cases hwf : i.wf c with
      | false => exact hword ▸ illegalWord_encode hwf
      | true => cases h.symm.trans (checkOperands_of_wf hwf)

/-- Rule R131: the words the decoder refuses are exactly the illegal ones. -/
theorem exists_decode_error_iff (c : Config) (w : CmdWord) : (∃ e, decode c w = .error e) ↔ IllegalWord c w := by
  constructor
  · rintro ⟨e, he⟩
    exact illegalWord_of_decode_error he
  · intro hill
    cases hd : decode c w with
    | error e => exact ⟨e, rfl⟩
    | ok i => exact absurd hill (not_illegalWord_of_decode hd)

/-- Settles O4: the step runs the accepted word, which does not decode and so takes the fault entry for ILLEGAL. -/
theorem illegalWordsExactly : Obligations.IllegalWordsExactly := by
  refine ⟨exists_decode_error_iff, fun s w rest hs hf hill => ?_⟩
  obtain ⟨e, he⟩ := (exists_decode_error_iff s.cfg w).mpr hill
  exact ⟨_, (step_command hs hf).trans (runWord_of_decode_error he), faultTaken_enterFault (s.popHost rest) .illegal w⟩

/-! ### The fault entry of a command -/

section
variable {i : Instr} {s t : State}

/-- CheckAddr fails with MISALIGNED or BOUNDS, and both name the address itself (rule R43). -/
theorem checkAddr_eq_error {c : Config} {addr : Word} {n : Nat} {f : FaultCause}
    (h : checkAddr c addr n = .error f) : f = .misaligned addr ∨ f = .bounds addr := by
  unfold checkAddr at h
  split at h
  · exact .inl (Except.error.inj h).symm
  · split at h
    · exact .inr (Except.error.inj h).symm
    · cases h

/-- How a well-formed command ends (rules R92 and R136): UNWRITTEN for a source that no command has written, MISALIGNED
or BOUNDS for the address it accesses, or its counted effect. -/
theorem exec_next_of_wf (hwf : i.wf s.cfg = true) (h : exec i s = .next t) :
    ((∃ r ∈ sources s.cfg i, s.valid r = false) ∧ t = s.enterFault .unwritten (encode i)) ∨
      (∃ addr n f, accessed s.cfg i = some (addr, n) ∧ (f = .misaligned addr ∨ f = .bounds addr) ∧
        t = s.enterFault f (encode i)) ∨
      ∃ u, Effect i s u ∧ t = u.count := by
  by_cases hsrc : ∃ r ∈ sources s.cfg i, s.valid r = false
  · exact .inl ⟨hsrc, Host.Outcome.next.inj (h.symm.trans (exec_unwritten hwf hsrc))⟩
  have hall : ∀ r ∈ sources s.cfg i, s.valid r = true := by simpa using hsrc
  by_cases hacc : ∀ addr n, accessed s.cfg i = some (addr, n) → AddrOk s.cfg addr n
  · obtain ⟨u, he⟩ := exists_effect hwf hall hacc
    exact .inr (.inr ⟨u, he, Host.Outcome.next.inj (h.symm.trans (exec_of_effect he))⟩)
  · push Not at hacc
    obtain ⟨addr, n, haddr, hbad⟩ := hacc
    cases herr : checkAddr s.cfg addr n with
    | ok x => exact absurd ((checkAddr_eq_ok _ _ _ _).mp herr) hbad
    | error f =>
      exact .inr (.inl ⟨addr, n, f, haddr, checkAddr_eq_error herr,
        Host.Outcome.next.inj (h.symm.trans (exec_checkAddr_error hall haddr herr))⟩)

/-- The address a command accesses is the ADDR field of its word (rule R65). -/
theorem fieldAddr_encode_of_accessed {c : Config} {addr : Word} {n : Nat} (h : accessed c i = some (addr, n)) :
    fieldAddr (encode i) = addr := by
  cases i with
  | loadReg | storeReg | sortBlock =>
    cases h
    simp [encode]
  | minMax | maskedMinMax | reverse | transpose | intraSort | intraSort2 | maskedIntraSort2 | bitonicMerge => cases h

/-- A word takes a fault entry, which records the word's ADDR field for the codes 3 and 4 and else 0, or leaves FAULT as
it was (rules R33 and R135). -/
theorem runWord_next_records_fieldAddr {w : CmdWord} (h : runWord w s = .next t) :
    (∃ f : FaultCause, f.address = (if 3 ≤ f.code.toNat then fieldAddr w else 0) ∧ t = s.enterFault f w) ∨
      t.fault = s.fault := by
  cases hd : decode s.cfg w with
  | error e =>
    exact .inl ⟨.illegal, rfl, Host.Outcome.next.inj (h.symm.trans (runWord_of_decode_error hd))⟩
  | ok i =>
    obtain ⟨rfl, hwf⟩ := encode_eq_and_wf_of_decode hd
    rcases exec_next_of_wf hwf ((runWord_of_decode hd).symm.trans h) with
      ⟨-, ht⟩ | ⟨addr, n, f, hacc, hf, ht⟩ | ⟨u, he, rfl⟩
    · exact .inl ⟨.unwritten, rfl, ht⟩
    · have haddr := fieldAddr_encode_of_accessed hacc
      refine .inl ⟨f, ?_, ht⟩
      rcases hf with rfl | rfl
      · exact haddr.symm
      · exact haddr.symm
    · obtain ⟨-, ⟨hsame, -⟩, -⟩ := he.countedOnly
      exact .inr hsame

/-- Rule R130: the codes of the four faults are 1 to 4. -/
theorem FaultCause.code_range (f : FaultCause) : 1 ≤ f.code.toNat ∧ f.code.toNat ≤ 4 := by
  cases f <;> simp [FaultCause.code]

/-- A command that takes a fault entry has a next state, which the entry describes (rule R135). -/
theorem exists_faultTaken {f : FaultCause} (h : exec i s = .next (s.enterFault f (encode i))) :
    ∃ t, exec i s = .next t ∧ FaultTaken f.code f.address (encode i) s t :=
  ⟨_, h, faultTaken_enterFault s f (encode i)⟩

end

/-- Settles O20: the word was not faulted before, so it took a fault entry, whose code fixes what FADDR holds. -/
theorem faultEntryIsPrecise : Obligations.FaultEntryIsPrecise := by
  intro w s t hs hrun ht
  rcases runWord_next_records_fieldAddr hrun with ⟨f, haddr, rfl⟩ | hsame
  · obtain ⟨hlow, hhigh⟩ := f.code_range
    exact ⟨hlow, hhigh, haddr ▸ faultTaken_enterFault s f w⟩
  · simp [hs, ht] at hsame

/-- Settles O46: with its source written, a command takes the first part of CheckAddr that fails. -/
theorem addressFaults : Obligations.AddressFaults := by
  intro s r addr
  have hload : ∀ q ∈ sources s.cfg (.loadReg r addr), s.valid q = true := nofun
  have hblock : ∀ q ∈ sources s.cfg (.sortBlock addr), s.valid q = true := nofun
  have hstore (hr : s.valid r = true) : ∀ q ∈ sources s.cfg (.storeReg r addr), s.valid q = true := by
    simpa [sources] using hr
  refine ⟨fun hmis => ⟨?_, fun hr => ?_, ?_⟩, fun halign => ⟨fun hbeyond => ⟨?_, fun hr => ?_⟩, fun hbeyond => ?_⟩⟩
  · exact exists_faultTaken (exec_checkAddr_error hload rfl (checkAddr_misaligned hmis))
  · exact exists_faultTaken (exec_checkAddr_error (hstore hr) rfl (checkAddr_misaligned hmis))
  · exact exists_faultTaken (exec_checkAddr_error hblock rfl (checkAddr_misaligned hmis))
  · exact exists_faultTaken (exec_checkAddr_error hload rfl (checkAddr_bounds halign hbeyond))
  · exact exists_faultTaken (exec_checkAddr_error (hstore hr) rfl (checkAddr_bounds halign hbeyond))
  · exact exists_faultTaken (exec_checkAddr_error hblock rfl (checkAddr_bounds halign hbeyond))

/-- A well-formed command that reads no register never takes UNWRITTEN: where it completes, CMDCNT tells so, whatever
the fault registers held before (rules R27 and R132). -/
theorem not_faultTaken_unwritten {i : Instr} {s t : State} (hwf : i.wf s.cfg = true) (hsrc : sources s.cfg i = [])
    (h : exec i s = .next t) (a : Word) (w : CmdWord) : ¬ FaultTaken 2 a w s t := by
  rintro ⟨-, hcode, -, -, -, -, hcnt, -⟩
  rcases exec_next_of_wf hwf h with ⟨⟨r, hr, -⟩, -⟩ | ⟨addr, n, f, -, hf, rfl⟩ | ⟨u, he, rfl⟩
  · simp [hsrc] at hr
  · rcases hf with rfl | rfl
    · exact absurd hcode (by decide : (3 : BitVec 4) ≠ 2)
    · exact absurd hcode (by decide : (4 : BitVec 4) ≠ 2)
  · obtain ⟨hcount, -⟩ := he.countedOnly
    have hone : s.cmdcnt + 1 = s.cmdcnt := hcount.symm.trans hcnt
    simp at hone

/-- Settles O47: the register that nothing has written is a source of the command; LOADREG and SORTBLOCK have none. -/
theorem unwrittenSourceFaults : Obligations.UnwrittenSourceFaults := by
  constructor
  · intro s i vs vd va vb addr pat hwf hcases
    refine exists_faultTaken (exec_unwritten hwf ?_)
    rcases hcases with ⟨hi, hvs⟩ | ⟨hi, hpair⟩ | ⟨rfl, r, hr, hinvalid⟩
    · have hsrc : sources s.cfg i = [vs] := by
        simp only [List.mem_cons, List.not_mem_nil, or_false] at hi
        rcases hi with rfl | rfl | rfl <;> rfl
      exact ⟨vs, by simp [hsrc], hvs⟩
    · have hsrc : sources s.cfg i = [va, vb] := by
        simp only [List.mem_cons, List.not_mem_nil, or_false] at hi
        rcases hi with rfl | rfl | rfl | rfl | rfl <;> rfl
      simpa [hsrc] using hpair
    · exact ⟨r, mem_blockRegs.mpr hr, hinvalid⟩
  · intro s t i vd addr hi h a
    rcases List.mem_pair.mp hi with rfl | rfl
    · exact not_faultTaken_unwritten rfl rfl h a _
    · exact not_faultTaken_unwritten rfl rfl h a _

/-! ### Halted and idle -/

/-- Settles O7: the refusal is no next state, and of the host's other moves only reset touches what R137 names. -/
theorem haltedUntilReset : Obligations.HaltedUntilReset := by
  intro s hf
  refine ⟨fun w rest hs t ht => ?_, fun t ht => ?_⟩
  · cases (step_command_halted hs hf).symm.trans ht
  cases hs : s.host with
  | nil =>
    cases (step_idle hs).symm.trans ht
    exact .inl ⟨rfl, rfl, rfl, rfl, rfl, rfl⟩
  | cons m rest =>
    rcases takeMove_next ((step_move hs).symm.trans ht) with
      ⟨w, -, hrunning, -⟩ | ⟨a, x, -, -, rfl⟩ | ⟨o, v, -, rfl⟩ | ⟨rfl, rfl⟩
    · simp [hf] at hrunning
    · exact .inl ⟨rfl, rfl, rfl, rfl, rfl, rfl⟩
    · exact .inl ⟨rfl, rfl, rfl, rfl, rfl, rfl⟩
    · exact .inr ⟨rest, rfl, rfl⟩

/-- Settles O8: idle answers the state itself. -/
theorem idleHoldsState : Obligations.IdleHoldsState := fun _ => step_idle

end Sys2Proof.Machine
end

section
/-! Reset (rules R160 and R161): the state it gives, against the state after power-on. -/

namespace Sys2Proof.Machine

theorem step_reset {s : State} {rest : List HostMove} (hs : s.host = .reset :: rest) :
    step s = .next (s.popHost rest).applyReset := step_move hs

/-- Reset gives the state after power-on but for the lanes, the memory and the host's moves, which it keeps, and the
number of draws, which it advances. No register is valid in either state, so no lane has to agree. -/
theorem sameButUnwritten_powerOn_applyReset (s : State) :
    SameButUnwritten { State.powerOn s.cfg with mem := s.mem, host := s.host, draws := s.applyReset.draws }
      s.applyReset := by
  refine ⟨rfl, ⟨rfl, rfl, rfl, rfl⟩, rfl, rfl, rfl, rfl, fun r => ⟨?_, fun hvalid => ?_⟩⟩
  · exact (s.valid_applyReset r).trans (valid_powerOn s.cfg r).symm
  · cases (valid_powerOn s.cfg r).symm.trans hvalid

/-- Settles O9: the reset move answers `State.applyReset` of the state with that move taken. -/
theorem resetMoveClears : Obligations.ResetMoveClears := fun s rest hs =>
  ⟨_, step_reset hs, State.valid_applyReset _, rfl, rfl, rfl, rfl, rfl, rfl, rfl, rfl,
    sameButUnwritten_powerOn_applyReset (s.popHost rest)⟩

end Sys2Proof.Machine
end
